-- ==== Sys2Proof/Config.lean ====
section
/-! DEFINITION. What one implementation fixes and the spec leaves open (00_scope.md rule R5, 10_state.md rule R27).
Every value here that a result could depend on is an opaque constant: no proof can see what it is. -/

namespace Sys2Proof.Config

/-- The width of one pin identifier inside an `INITCMD` word (30_encoding.md rule R57: `PINS` is "opaque"; the opcode
table: "width is a parameter"). DESIGN CHOICE, log entry 1. No instruction's meaning reads it; only the encoding does. -/
abbrev pinIdBits : Nat := 8

/-- `EXP` (00_scope.md rule R5, 42_linearization.md rule R103): a total function from binary64 to binary64 that
depends on its argument alone. What may be assumed of it is `Safety.ExpAdmissible`, always as a named premise. -/
opaque exp : BitVec 64 → BitVec 64

/-- The free value behind `NAN_BITS` (42_linearization.md rule R104); `Machine.nanBits` makes a NaN of it. -/
opaque nanFree : BitVec 64

/-- The free value behind the payload of a NaN that an arithmetic operation itself produces from its two operands
(42_linearization.md rule R84: only unreachable inputs get there; no rule gives those bits). Log entry 9. -/
opaque arithNaNFree : BitVec 64 → BitVec 64 → BitVec 64

/-- `CS_ACTIVE_LEVEL` (10_state.md rule R17): the electrical level that means "asserted"; true is high. -/
opaque csActiveLevel : Bool

/-- `SPI_CLOCK` (40_frame_acquire.md rule R62): "a fixed, conservative clock rate"; no rule reads it. -/
opaque spiClock : Nat

/-- `SW_DELAY` (40_frame_acquire.md rule R63): "explicit millisecond-scale delays"; no rule reads it. -/
opaque swDelay : Nat

end Sys2Proof.Config
end

