-- ==== Sys2Proof/Word.lean ====
section
/-! DEFINITION. The words of the machine (30_encoding.md rule R45, 42_linearization.md rule R101) and the operand
types of `INIT` (10_state.md rule R13). -/

namespace Sys2Proof

/-- An IEEE 754 binary64 value, as its 64-bit pattern (42_linearization.md rule R101). -/
abbrev F64 := BitVec 64

/-- A RawFrame: one unsigned 32-bit number (30_encoding.md rule R46). -/
abbrev Frame := BitVec 32

/-- A `CMD` word: the one field `OP`, 3 bits (30_encoding.md rule R49). -/
abbrev Cmd := BitVec 3

/-- An `INITCMD` word: `STRATEGY` in bit 0, then `PINS` (30_encoding.md rule R57). The split of `PINS` into three
identifiers of `Config.pinIdBits` bits, chip-select lowest, is the model's: DESIGN CHOICE, log entry 1. -/
abbrev InitCmd := BitVec (1 + 3 * Config.pinIdBits)

/-- A word a host presents, on one of the two separate interfaces (30_encoding.md rules R45 and R57). -/
inductive HostWord where
  | cmd (w : Cmd)
  | initCmd (w : InitCmd)
deriving DecidableEq, Repr

/-- The two transfer strategies (40_frame_acquire.md rule R63). -/
inductive Strategy where
  | swTimed
  | hwClocked
deriving DecidableEq, Repr

/-- The opaque identifiers of the chip-select, clock and data pins (10_state.md rule R13). -/
structure Pins where
  cs : Nat
  sck : Nat
  data : Nat
deriving DecidableEq, Repr

end Sys2Proof
end

