-- ==== Sys2Proof/Machine/Float64.lean ====
section
/-! DEFINITION. The binary64 primitives of 00_scope.md rule R7 (`fadd`, `fsub`, `fmul`, `fdiv`, `flt`, `fge`, `i2f`,
`lit`, `isNaN`), each rounded once, to nearest with ties to even (42_linearization.md rule R101). Every finite binary64
value is a whole number of units of 2^-1074, so each operation computes its exact result in these units, as a fraction
of natural numbers, and rounds it once (`roundMag`). -/

namespace Sys2Proof.Machine

/-- The biased exponent field. -/
def expField (a : F64) : Nat := a.toNat / 2 ^ 52 % 2 ^ 11

/-- The fraction field. -/
def fracField (a : F64) : Nat := a.toNat % 2 ^ 52

/-- The sign bit. -/
def signBit (a : F64) : Bool := a.getLsbD 63

/-- `isNaN(x)` (00_scope.md rule R7). -/
def isNaN (a : F64) : Bool := expField a == 2047 && fracField a != 0

def isInf (a : F64) : Bool := expField a == 2047 && fracField a == 0

def isFinite (a : F64) : Bool := expField a != 2047

/-- Plus or minus zero. -/
def isZero (a : F64) : Bool := expField a == 0 && fracField a == 0

/-- The magnitude of a finite value, in units of 2^-1074 (gradual underflow included). -/
def magUnits (a : F64) : Nat :=
  if expField a = 0 then fracField a else (2 ^ 52 + fracField a) * 2 ^ (expField a - 1)

/-- A finite value, in units of 2^-1074. -/
def intUnits (a : F64) : Int := if signBit a then -(magUnits a : Int) else (magUnits a : Int)

/-- How many units make 1: the smallest subnormal value is 2^-1074. -/
def unitsPerOne : Rat := 2 ^ 1074

/-- The rational number a finite value denotes. -/
def toRat (a : F64) : Rat := (intUnits a : Rat) / unitsPerOne

/-- The bits, without sign, of the binary64 value nearest `n / d` units, ties to even, and those of infinity where
`n / d` is beyond the largest finite value's half unit (42_linearization.md rule R101). With `q` the whole units,
`2 ^ k` is the unit in the last place of the result. -/
def roundMag (n d : Nat) : Nat :=
  let q := n / d
  let k := if q < 2 ^ 53 then 0 else q.log2 - 52
  let u := d * 2 ^ k
  let lo := n / u
  let r := n % u
  let f := if u < 2 * r ∨ (2 * r = u ∧ lo % 2 = 1) then lo + 1 else lo
  min (k * 2 ^ 52 + f) (2047 * 2 ^ 52)

/-- A value from its sign and its other 63 bits. -/
def pack (neg : Bool) (bits : Nat) : F64 := BitVec.ofNat 64 ((if neg then 2 ^ 63 else 0) + bits)

def infinity (neg : Bool) : F64 := pack neg (2047 * 2 ^ 52)

/-- `x` if it is a NaN, and one particular NaN otherwise: a NaN of which no more can be known than of `x`. -/
def someNaN (x : F64) : F64 := if isNaN x then x else 0x7FF8000000000000

/-- `NAN_BITS` (42_linearization.md rule R104): a NaN, and nothing more can be proved of it. -/
def nanBits : F64 := someNaN Config.nanFree

/-- The NaN an arithmetic operation produces from these operands: its payload is free (log entry 9). -/
def arithNaN (a b : F64) : F64 := someNaN (Config.arithNaNFree a b)

/-- The value with the other sign. -/
def fneg (a : F64) : F64 := a ^^^ 0x8000000000000000

/-- `fadd(a,b)` (00_scope.md rule R7). An exact zero sum is `+0.0` unless both operands are negative zeros. -/
def fadd (a b : F64) : F64 :=
  if isNaN a || isNaN b then arithNaN a b
  else if isInf a then if isInf b && signBit a != signBit b then arithNaN a b else a
  else if isInf b then b
  else
    let s := intUnits a + intUnits b
    if s = 0 then pack (signBit a && signBit b) 0 else pack (decide (s < 0)) (roundMag s.natAbs 1)

/-- `fsub(a,b)` (00_scope.md rule R7). -/
def fsub (a b : F64) : F64 := fadd a (fneg b)

/-- `fmul(a,b)` (00_scope.md rule R7). -/
def fmul (a b : F64) : F64 :=
  let neg := signBit a != signBit b
  if isNaN a || isNaN b then arithNaN a b
  else if isInf a || isInf b then if isZero a || isZero b then arithNaN a b else infinity neg
  else pack neg (roundMag (magUnits a * magUnits b) (2 ^ 1074))

/-- `fdiv(a,b)` (00_scope.md rule R7). -/
def fdiv (a b : F64) : F64 :=
  let neg := signBit a != signBit b
  if isNaN a || isNaN b then arithNaN a b
  else if isInf a then if isInf b then arithNaN a b else infinity neg
  else if isInf b then pack neg 0
  else if isZero b then if isZero a then arithNaN a b else infinity neg
  else pack neg (roundMag (magUnits a * 2 ^ 1074) (magUnits b))

/-- The place of a value that is no NaN in the order of the values: both zeros at 0, infinities at the ends. -/
def orderKey (a : F64) : Int :=
  if signBit a then -((a.toNat % 2 ^ 63 : Nat) : Int) else ((a.toNat % 2 ^ 63 : Nat) : Int)

/-- `flt(a,b)`: `a < b`, false when either is NaN (00_scope.md rule R7). -/
def flt (a b : F64) : Bool := !isNaN a && !isNaN b && decide (orderKey a < orderKey b)

/-- `fge(a,b)`: `a >= b`, false when either is NaN (00_scope.md rule R7). -/
def fge (a b : F64) : Bool := !isNaN a && !isNaN b && decide (orderKey b ≤ orderKey a)

/-- `i2f(n)` (00_scope.md rule R7), exact for `|n| < 2^53`. -/
def i2f (n : Int) : F64 := pack (decide (n < 0)) (roundMag (n.natAbs * 2 ^ 1074) 1)

/-- `lit(d)` (00_scope.md rule R7) for the decimal numeral `m * 10^e`, its sign apart. -/
def lit (neg : Bool) (m : Nat) (e : Int) : F64 :=
  match e with
  | .ofNat k => pack neg (roundMag (m * 10 ^ k * 2 ^ 1074) 1)
  | .negSucc k => pack neg (roundMag (m * 2 ^ 1074) (10 ^ (k + 1)))

/-- The unit in the last place of a finite value, as a rational number (42_linearization.md rule R103). -/
def ulp (a : F64) : Rat := 2 ^ (expField a - 1) / unitsPerOne

end Sys2Proof.Machine
end

