-- ==== Sys2Proof/Machine/Rom.lean ====
section
/-! DEFINITION. The hardwired scalar constants (10_state.md rule R25), each `lit` of the document's numeral. -/

namespace Sys2Proof.Machine

/-- 0.25, the weight of the hot-junction field. -/
def hjLsb : F64 := 0x3FD0000000000000

/-- 0.0625, the weight of the cold-junction field. -/
def cjLsb : F64 := 0x3FB0000000000000

/-- 0.041276 mV per degree C. -/
def kLin : F64 := 0x3FA52220BC382A13

/-- 20.644 mV. -/
def vMid : F64 := 0x4034A4DD2F1A9FBE

/-- 54.886 mV. -/
def vMax : F64 := 0x404B716872B020C5

/-- The threshold 0. -/
def zero : F64 := 0x0000000000000000

/-- 1.0, the zeroth power of a series variable (42_linearization.md rule R86). -/
def one : F64 := 0x3FF0000000000000

def five : F64 := 0x4014000000000000

def nine : F64 := 0x4022000000000000

def thirtyTwo : F64 := 0x4040000000000000

end Sys2Proof.Machine
end

