-- ==== Sys2Proof/Machine/Operands.lean ====
section
/-! DEFINITION. Operand assembly from a frame (30_encoding.md rules R46 to R48, 41_frame_decode.md rule R77). -/

namespace Sys2Proof.Machine

/-- `sext_N(v)` for an `N`-bit value `v` (00_scope.md rule R6). -/
def sext (N v : Nat) : Int := if v.testBit (N - 1) then (v : Int) - 2 ^ N else (v : Int)

/-- Field `HJ`, bits 31:18 (30_encoding.md rule R46). -/
def hjField (frame : Frame) : Nat := frame.toNat / 2 ^ 18 % 2 ^ 14

/-- Field `CJ`, bits 15:4 (30_encoding.md rule R46). -/
def cjField (frame : Frame) : Nat := frame.toNat / 2 ^ 4 % 2 ^ 12

/-- The hot-junction operand (30_encoding.md rule R47). -/
def hotJunction (frame : Frame) : Int := sext 14 (hjField frame)

/-- The cold-junction operand (30_encoding.md rule R48). -/
def coldJunction (frame : Frame) : Int := sext 12 (cjField frame)

end Sys2Proof.Machine
end

