-- ==== Sys2Proof/Syntax.lean ====
section
/-! DEFINITION. The operations a host can ask for: one constructor per row of spec/opcode_table.json. -/

namespace Sys2Proof

/-- The five public read operations (30_encoding.md rule R49) and `INIT` (43_operations.md rule R110). No read takes
an operand: the frame it works on is read by the operation itself. -/
inductive Instr where
  /-- `RDINT`: read the internal (cold-junction) temperature, degrees C (43_operations.md rule R113). -/
  | rdint
  /-- `RDCEL`: read the NIST-corrected hot-junction temperature, degrees C (43_operations.md rule R114). -/
  | rdcel
  /-- `RDRAW`: read the chip's raw hot-junction temperature, degrees C (43_operations.md rule R115). -/
  | rdraw
  /-- `RDFAH`: read the NIST-corrected hot-junction temperature, degrees F (43_operations.md rule R116). -/
  | rdfah
  /-- `RDFLT`: read the 3-bit fault code (43_operations.md rule R117). -/
  | rdflt
  /-- `INIT`: capture the bus configuration (43_operations.md rule R110). -/
  | init (strategy : Strategy) (pins : Pins)
deriving DecidableEq, Repr

end Sys2Proof
end

