-- ==== Sys2Proof/WellFormed.lean ====
section
/-! DEFINITION. Which instructions an encoding can carry. The reads have no operand to check; of `INIT` only the width
of the pin identifiers is checked ("both strategy values are legal; there is no illegal PINS value the block can
detect", 43_operations.md rule R110): `exec` itself refuses no pins. -/

namespace Sys2Proof

/-- Every identifier fits its field of the `INITCMD` word (log entry 1). -/
def Pins.wf (p : Pins) : Bool :=
  decide (p.cs < 2 ^ Config.pinIdBits) && decide (p.sck < 2 ^ Config.pinIdBits) &&
    decide (p.data < 2 ^ Config.pinIdBits)

def Instr.wf : Instr → Bool
  | .rdint => true
  | .rdcel => true
  | .rdraw => true
  | .rdfah => true
  | .rdflt => true
  | .init _ pins => pins.wf

end Sys2Proof
end

