-- ==== Sys2Proof/Decode.lean ====
section
/-! DEFINITION. Decoding a host's word and encoding an instruction (30_encoding.md rules R49, R50, R53, R57). -/

namespace Sys2Proof

/-- Why a word selects no operation. -/
inductive DecodeError where
  /-- `OP` is 101, 110 or 111 (30_encoding.md rule R53). -/
  | reservedOp (op : Cmd)
deriving DecidableEq, Repr

/-- The strategy codes of 30_encoding.md rule R57: 0 = `SW_TIMED`, 1 = `HW_CLOCKED`. -/
def strategyOfBit (b : Bool) : Strategy := if b then .hwClocked else .swTimed

def strategyBit : Strategy → Bool
  | .swTimed => false
  | .hwClocked => true

/-- The operation a `CMD` word selects (30_encoding.md rule R49). -/
def decodeCmd (w : Cmd) : Except DecodeError Instr :=
  match w.toNat with
  | 0 => .ok .rdint
  | 1 => .ok .rdcel
  | 2 => .ok .rdraw
  | 3 => .ok .rdfah
  | 4 => .ok .rdflt
  | _ => .error (.reservedOp w)

/-- Every `INITCMD` word selects `INIT` (30_encoding.md rule R57; the table's mask is 0). -/
def decodeInitCmd (w : InitCmd) : Instr :=
  let p := w.toNat / 2
  .init (strategyOfBit (w.getLsbD 0))
    { cs := p % 2 ^ Config.pinIdBits
      sck := p / 2 ^ Config.pinIdBits % 2 ^ Config.pinIdBits
      data := p / 2 ^ (2 * Config.pinIdBits) % 2 ^ Config.pinIdBits }

/-- The decoder: total, and a reserved code is refused by name. -/
def decode : HostWord → Except DecodeError Instr
  | .cmd w => decodeCmd w
  | .initCmd w => .ok (decodeInitCmd w)

/-- The `INITCMD` word of `INIT` (30_encoding.md rule R57). -/
def encodeInitCmd (strategy : Strategy) (pins : Pins) : InitCmd :=
  BitVec.ofNat _ ((strategyBit strategy).toNat +
    2 * (pins.cs + 2 ^ Config.pinIdBits * (pins.sck + 2 ^ Config.pinIdBits * pins.data)))

/-- The encoder, from the table of 30_encoding.md rules R49 and R57. -/
def encode : Instr → HostWord
  | .rdint => .cmd 0b000
  | .rdcel => .cmd 0b001
  | .rdraw => .cmd 0b010
  | .rdfah => .cmd 0b011
  | .rdflt => .cmd 0b100
  | .init strategy pins => .initCmd (encodeInitCmd strategy pins)

/-- A table word as the host numbers it, put on the interface it belongs to. A `CMD` row has 3 bits, one whole byte;
the two formats have no bit that tells them apart (they come on separate interfaces), so a word of 8 bits is taken as a
`CMD` word and a word of any other width as an `INITCMD` word (`INITCMD` has 25 bits, four whole bytes). Log entry 2. -/
def tableWord (nbits w : Nat) : HostWord :=
  if nbits = 8 then .cmd (BitVec.ofNat _ w) else .initCmd (BitVec.ofNat _ w)

/-- The instruction the decoder reads from a table word; none for a reserved code. -/
def decodeTableWord (nbits w : Nat) : Option Instr :=
  match decode (tableWord nbits w) with
  | .ok i => some i
  | .error _ => none

end Sys2Proof
end

