-- ==== Sys2Proof/Machine/State.lean ====
section
/-! DEFINITION. The machine's state (10_state.md), its reasons to stop, and its reset value (10_state.md rule R28). -/

namespace Sys2Proof.Machine

/-- `RESP.STATUS` (30_encoding.md rule R51). -/
inductive Status where
  | ok
  | refusedInit
  | refusedBusy
  | refusedReserved
deriving DecidableEq, Repr

/-- A response: `STATUS`, and `RESULT` where the response has one (30_encoding.md rule R51: a refusal gives it no
value, and `INIT` responds with `STATUS` only). -/
structure Response where
  status : Status
  result : Option (BitVec 64)
deriving DecidableEq, Repr

/-- `CFG`, the only state that persists across operations (10_state.md rule R13). -/
structure Cfg where
  valid : Bool
  strategy : Strategy
  pins : Pins
deriving DecidableEq, Repr

/-- The five read operations, as the operation in progress (43_operations.md rule R111). -/
inductive ReadOp where
  | rdint
  | rdcel
  | rdraw
  | rdfah
  | rdflt
deriving DecidableEq, Repr

/-- A pending poll of the Frame Acquirer: the word assembled so far and the number of SCK periods already sampled
(40_frame_acquire.md rules R60 and R61). -/
structure Poll where
  word : Frame
  sampled : Nat
deriving DecidableEq, Repr

/-- The CorrectionTable, 54 binary64 words (10_state.md rule R18). `GAUSS` holds A0, A1, A2. It is parameter `P_ROM`
(00_scope.md rule R5): a field of State so that what is said of the machine is said for every contents of it. -/
structure Rom where
  fwdPos : Vector F64 10
  gauss : Vector F64 3
  fwdNeg : Vector F64 11
  invNeg : Vector F64 10
  invMid : Vector F64 10
  invHigh : Vector F64 10
deriving DecidableEq, Repr

/-- What can happen next. The events come from outside the block or say which part of it moves; nothing constrains
them (20_memory.md rule R33, 40_frame_acquire.md rules R66 and R69). Log entry 4. -/
inductive Event where
  /-- The host presents a word (30_encoding.md rules R49 and R57). -/
  | request (w : HostWord)
  /-- The Frame Acquirer takes one turn; `level` is the level sampled on `DATA` in the SCK period this turn begins, if
  it begins one (40_frame_acquire.md rule R60). Log entry 10. -/
  | acquirerTurn (level : Bool)
  /-- The decoder takes its turn: it decodes `FRAME` and responds (43_operations.md rule R111). Log entry 11. -/
  | decoderTurn
  /-- Reset (70_reset_and_hazards.md rule R150). -/
  | reset
deriving DecidableEq, Repr

/-- The state. `BUSY` is `State.busy`, read from `inProgress`; there is no general register, program counter, flag or
memory (10_state.md rules R10 to R12, 20_memory.md rule R30). -/
structure State where
  /-- `CFG` (10_state.md rule R13). -/
  cfg : Cfg
  /-- `BUSY` and the operation it stands for: none is `BUSY = 0` (10_state.md rule R15). -/
  inProgress : Option ReadOp
  /-- `FRAME`: none is "no value" (10_state.md rule R14). -/
  frame : Option Frame
  /-- The acquirer's pending poll, if any (40_frame_acquire.md rule R69). -/
  poll : Option Poll
  /-- `CS`: true is asserted (10_state.md rule R17). -/
  cs : Bool
  /-- `SCK`: true is high, false is the idle level, low (10_state.md rule R17). -/
  sck : Bool
  /-- The response outputs: none is "no response pending" (10_state.md rule R28). -/
  response : Option Response
  /-- The CorrectionTable (10_state.md rule R18). -/
  rom : Rom
  /-- THE MODEL'S OWN: what happens next, oldest first (log entry 4). -/
  events : List Event
deriving DecidableEq, Repr

/-- `BUSY` (10_state.md rule R15). -/
def State.busy (s : State) : Bool := s.inProgress.isSome

/-- The electrical level on the chip-select line (10_state.md rule R17). -/
def State.csLevel (s : State) : Bool := if s.cs then Config.csActiveLevel else !Config.csActiveLevel

/-- Why the machine stops with a fault. Neither is reachable from a state that meets `Safety.Inv`. -/
inductive Fault where
  /-- Raised by the decoder's turn, when `FRAME` is read without value: "reading FRAME when BUSY = 0 has no meaning and
  is a model fault, not a value" (10_state.md rule R14). Safe. -/
  | frameHasNoValue
  /-- Raised by a read operation whose `FrameRead()` is invoked with `CS` asserted or `SCK` high, against its
  "require CFG.VALID = 1 and CS deasserted and SCK low" (40_frame_acquire.md rule R60). Safe. -/
  | acquirerNotIdle
deriving DecidableEq, Repr

/-- Why the machine has no meaning for an instruction. A REFUSAL OF A REQUEST by the block (43_operations.md rule R112)
is none of these: it is a response, and the machine goes on. -/
inductive Refusal where
  /-- Raised by `exec` for an instruction that has no meaning yet; no arm raises it. Safe. -/
  | notModelled (mnemonic : String)
deriving DecidableEq, Repr

/-- The default contents of the CorrectionTable (10_state.md rules R19 to R24; all but `fwdNeg[0]` from general
knowledge, 93_implementation_defined.md GK1). PRESUMED, log entry 6. -/
def Rom.default : Rom where
  fwdPos := #v[0xBF9205D7C4B5B30B, 0x3FA3ED7AECFA2196, 0x3EF375D4F72891E7, 0xBE7AB2AC7A34DE08, 0x3DF5E184B676EC5F,
    0xBD63BA97C620F2A8, 0x3CC43402E5AA091D, 0xBC17A08B01C8DB89, 0x3B5D5CB4B8001899, 0xBA8DF84751FF39EC]
  gauss := #v[0x3FBE5C698D6253B2, 0xBF1F05E0B1DF7541, 0x405FBDFD8ADAB9F5]
  fwdNeg := #v[0x0000000000000000, 0x3FA432CEA3617A8C, 0x3EF8C51527258F38, 0xBE960D1E00DEDD10, 0xBE356F180D412956,
    0xBDD28E87184E28E2, 0xBD64331005854C85, 0xBCEC009B244DAD3E, 0xBC68198A8D5F3A78, 0xBBD77B297D1FFC0D,
    0xBB33BBA1543F5F44]
  invNeg := #v[0x0000000000000000, 0x40392C6801711948, 0xBFF2A91D656B94A4, 0xBFF1557547AAB97D, 0xBFECBA3F96EEC46E,
    0xBFD7E62CCFECBCD7, 0xBFB62D8E90737793, 0xBF85671F8511B36D, 0xBF410369E6A964E4, 0x0000000000000000]
  invMid := #v[0x0000000000000000, 0x40391563886594AF, 0x3FB41F32F62184E0, 0xBFD005213C90AA07, 0x3FB5497ECF12F82A,
    0xBF89266F55785780, 0x3F50101C598742C5, 0xBF0723118FE5DFC5, 0x3EB1BEEED5041D19, 0xBE469B94F20E972B]
  invHigh := #v[0xC06079C91D14E3BD, 0x404826AF251C193B, 0xBFFA56249A133C1D, 0x3FABFABB72875BFF, 0xBF4F9F9B43F14F16,
    0x3EE275A431B5AFB6, 0xBE60B376F722EBA7, 0x0000000000000000, 0x0000000000000000, 0x0000000000000000]

/-- `CFG` after reset: `VALID` is 0 (10_state.md rule R28); the other two fields are "unspecified" there and hold the
values named in log entry 3 (DESIGN CHOICE). -/
def Cfg.reset : Cfg := { valid := false, strategy := .swTimed, pins := { cs := 0, sck := 0, data := 0 } }

/-- The machine right after reset (10_state.md rule R28). -/
def State.reset : State where
  cfg := Cfg.reset
  inProgress := none
  frame := none
  poll := none
  cs := false
  sck := false
  response := none
  rom := Rom.default
  events := []

end Sys2Proof.Machine
end

