-- ==== Sys2Proof/Machine/Flags.lean ====
section
/-! DEFINITION. What plays the part of flags: the fault code (41_frame_decode.md rule R70), the response status codes
(30_encoding.md rule R51) and the tests that refuse a request (43_operations.md rule R112). -/

namespace Sys2Proof.Machine

/-- `FaultCode(frame)`: bits 2:0, exactly `frame & 0x7` (41_frame_decode.md rule R70). -/
def faultCode (frame : Frame) : BitVec 3 := frame.setWidth 3

/-- `Faulted(frame)` (41_frame_decode.md rule R70). -/
def faulted (frame : Frame) : Bool := faultCode frame != 0

/-- The 2-bit code of a status (30_encoding.md rule R51). -/
def statusCode : Status → BitVec 2
  | .ok => 0b00
  | .refusedInit => 0b01
  | .refusedBusy => 0b10
  | .refusedReserved => 0b11

/-- Why a read request is refused in this state, tested in the order of 43_operations.md rule R112: busy first, then
not initialised. The third test, a reserved code, is `refusalOfReserved`. -/
def refusalOfRead (s : State) : Option Status :=
  if s.busy then some .refusedBusy else if s.cfg.valid then none else some .refusedInit

/-- Why a request with a reserved code is refused in this state (43_operations.md rule R112). -/
def refusalOfReserved (s : State) : Status := (refusalOfRead s).getD .refusedReserved

/-- Whether `INIT` is refused in this state (43_operations.md rule R110). -/
def initRefused (s : State) : Bool := s.cfg.valid || s.busy

end Sys2Proof.Machine
end

