-- ==== Sys2Proof/Machine/Linearize.lean ====
section
/-! DEFINITION. The NIST linearization (42_linearization.md): the piecewise polynomial evaluator. -/

namespace Sys2Proof.Machine

/-- `ThermocoupleVoltage(ti, tr)` (42_linearization.md rule R85). -/
def thermocoupleVoltage (ti tr : F64) : F64 := fmul (fsub tr ti) kLin

/-- The loop of `PowerSeries`: the coefficients still to add, the power `p` of the next one, the sum so far
(42_linearization.md rule R86). -/
def seriesFrom (x : F64) : List F64 → F64 → F64 → F64
  | [], _, acc => acc
  | c :: cs, p, acc => seriesFrom x cs (fmul p x) (fadd acc (fmul c p))

/-- `PowerSeries(c, n, x)`, the length `n` being that of the list (42_linearization.md rule R86). -/
def powerSeries (c : List F64) (x : F64) : F64 := seriesFrom x c one zero

/-- The argument `Gauss(ti)` hands to `EXP` (42_linearization.md rule R89). -/
def gaussArgument (rom : Rom) (ti : F64) : F64 :=
  let d := fsub ti rom.gauss[2]
  fmul rom.gauss[1] (fmul d d)

/-- `Gauss(ti)` (42_linearization.md rule R89), for a given exponential. -/
def gauss (exp : F64 → F64) (rom : Rom) (ti : F64) : F64 := fmul rom.gauss[0] (exp (gaussArgument rom ti))

/-- `FwdPos(ti)` (42_linearization.md rule R88). -/
def fwdPos (exp : F64 → F64) (rom : Rom) (ti : F64) : F64 :=
  fadd (powerSeries rom.fwdPos.toList ti) (gauss exp rom ti)

/-- `FwdNeg(ti)` (42_linearization.md rule R90). -/
def fwdNeg (rom : Rom) (ti : F64) : F64 := powerSeries rom.fwdNeg.toList ti

/-- `ColdJunctionVoltage(ti)` (42_linearization.md rule R87). -/
def coldJunctionVoltage (exp : F64 → F64) (rom : Rom) (ti : F64) : F64 :=
  if fge ti zero then fwdPos exp rom ti else fwdNeg rom ti

/-- `TotalVoltage(ti, tr)` (42_linearization.md rule R92). -/
def totalVoltage (exp : F64 → F64) (rom : Rom) (ti tr : F64) : F64 :=
  fadd (thermocoupleVoltage ti tr) (coldJunctionVoltage exp rom ti)

/-- The four answers of `InvSelect` (42_linearization.md rule R95). -/
inductive InvRange where
  | neg
  | mid
  | high
  | none
deriving DecidableEq, Repr

/-- `InvSelect(v)` (42_linearization.md rule R95): three tests with strict `<`, in this order, and no lower limit. -/
def invSelect (v : F64) : InvRange :=
  if flt v zero then .neg else if flt v vMid then .mid else if flt v vMax then .high else .none

/-- `InvNeg(v)` (42_linearization.md rule R96). -/
def invNeg (rom : Rom) (v : F64) : F64 := powerSeries rom.invNeg.toList v

/-- `InvMid(v)` (42_linearization.md rule R97). -/
def invMid (rom : Rom) (v : F64) : F64 := powerSeries rom.invMid.toList v

/-- `InvHigh(v)` (42_linearization.md rule R98). -/
def invHigh (rom : Rom) (v : F64) : F64 := powerSeries rom.invHigh.toList v

/-- `Inverse(v)` (42_linearization.md rule R99). -/
def inverse (rom : Rom) (v : F64) : F64 :=
  match invSelect v with
  | .neg => invNeg rom v
  | .mid => invMid rom v
  | .high => invHigh rom v
  | .none => nanBits

/-- `Linearize(ti, tr)` (42_linearization.md rule R100), for a given exponential. -/
def linearize (exp : F64 → F64) (rom : Rom) (ti tr : F64) : F64 := inverse rom (totalVoltage exp rom ti tr)

/-- `CelsiusToFahrenheit(c)` (43_operations.md rule R118). -/
def celsiusToFahrenheit (c : F64) : F64 :=
  if isNaN c then nanBits else fadd (fdiv (fmul c nine) five) thirtyTwo

end Sys2Proof.Machine
end

