-- ==== Sys2Proof/Machine/FrameDecode.lean ====
section
/-! DEFINITION. The Temperature Decoder as a total function of the frame (41_frame_decode.md rule R76), and what each
read operation takes from it (43_operations.md rules R113 to R117). -/

namespace Sys2Proof.Machine

/-- The four transient values of an operation (10_state.md rule R16). -/
structure DecodedReading where
  internalTempC : F64
  rawHotJunctionC : F64
  correctedHotJunctionC : F64
  faultCode : BitVec 3
deriving DecidableEq, Repr

/-- `InternalTempC(frame)` (41_frame_decode.md rule R71). -/
def internalTempC (frame : Frame) : F64 := fmul (i2f (coldJunction frame)) cjLsb

/-- `RawHotJunctionC(frame)`, with the fault gate (41_frame_decode.md rule R73). -/
def rawHotJunctionC (frame : Frame) : F64 :=
  if faulted frame then nanBits else fmul (i2f (hotJunction frame)) hjLsb

/-- `correctedHotJunctionC` of the frame (41_frame_decode.md rule R76): a faulted frame is never linearized. -/
def correctedHotJunctionC (exp : F64 → F64) (rom : Rom) (frame : Frame) : F64 :=
  if faulted frame then nanBits else linearize exp rom (internalTempC frame) (rawHotJunctionC frame)

/-- `Decode(frame)` (41_frame_decode.md rule R76). -/
def decodeFrame (exp : F64 → F64) (rom : Rom) (frame : Frame) : DecodedReading where
  internalTempC := internalTempC frame
  rawHotJunctionC := rawHotJunctionC frame
  correctedHotJunctionC := correctedHotJunctionC exp rom frame
  faultCode := faultCode frame

/-- `Project(RDINT, d)` (43_operations.md rule R113). -/
def projectRdint (d : DecodedReading) : BitVec 64 := d.internalTempC

/-- `Project(RDCEL, d)` (43_operations.md rule R114). -/
def projectRdcel (d : DecodedReading) : BitVec 64 := d.correctedHotJunctionC

/-- `Project(RDRAW, d)` (43_operations.md rule R115). -/
def projectRdraw (d : DecodedReading) : BitVec 64 := d.rawHotJunctionC

/-- `Project(RDFAH, d)` (43_operations.md rule R116). -/
def projectRdfah (d : DecodedReading) : BitVec 64 := celsiusToFahrenheit d.correctedHotJunctionC

/-- `Project(RDFLT, d)` (43_operations.md rule R117). -/
def projectRdflt (d : DecodedReading) : BitVec 64 := d.faultCode.setWidth 64

/-- `Project(op, d)` (43_operations.md rule R111). -/
def project (op : ReadOp) (d : DecodedReading) : BitVec 64 :=
  match op with
  | .rdint => projectRdint d
  | .rdcel => projectRdcel d
  | .rdraw => projectRdraw d
  | .rdfah => projectRdfah d
  | .rdflt => projectRdflt d

/-- The `RESULT` of an operation whose poll returned `frame`: a function of these two and the constants alone
(43_operations.md rule R111). -/
def resultOf (op : ReadOp) (rom : Rom) (frame : Frame) : BitVec 64 := project op (decodeFrame Config.exp rom frame)

end Sys2Proof.Machine
end

