-- ==== Sys2Proof/Machine/Ops.lean ====
section
/-! DEFINITION. The named operations over the state: responding, refusing, the Frame Acquirer's turns, the decoder's
turn, the common shape of a read operation, and reset. The block has no trap: no operation here takes or returns from
an exception (60_exceptions.md rules R133, R138 and R139). -/

namespace Sys2Proof.Machine

/-- `refuse(reason)` of 43_operations.md rule R112: only the response outputs change, and `RESULT` has no value. -/
def refuse (status : Status) (s : State) : State := { s with response := some { status := status, result := none } }

/-- A request whose `OP` is reserved (43_operations.md rule R112). -/
def refuseReserved (s : State) : State := refuse (refusalOfReserved s) s

/-- The acceptance of a read (43_operations.md rule R111, first line) and the invocation of `FrameRead()`
(40_frame_acquire.md rule R60): `BUSY` goes to 1 and a poll is pending. A fault where `FrameRead()`'s `require` fails. -/
def acceptRead (op : ReadOp) (s : State) : Host.Outcome State Fault Refusal :=
  if s.cs || s.sck then .fault .acquirerNotIdle
  else .next { s with inProgress := some op, poll := some { word := 0, sampled := 0 }, response := none }

/-- One turn of the Frame Acquirer, the next line of `FrameRead()` (40_frame_acquire.md rule R60): assert `CS`; then 32
SCK periods, `SCK` rising with a bit shifted in (rule R61) and falling; then deassert `CS` and return the word to
`FRAME` (rule R69). Without a pending poll it has nothing to do (log entry 14). -/
def acquirerTurn (level : Bool) (s : State) : State :=
  match s.poll with
  | none => s
  | some p =>
    if s.cs = false then { s with cs := true }
    else if s.sck then { s with sck := false }
    else if p.sampled < 32 then
      { s with
        sck := true
        poll := some { word := p.word <<< 1 ||| (BitVec.ofBool level).setWidth 32, sampled := p.sampled + 1 } }
    else { s with cs := false, poll := none, frame := some p.word }

/-- Reading `FRAME`: it has a value only inside an operation (10_state.md rule R14). -/
def readFrame (s : State) : Except Fault Frame :=
  match s.frame with
  | some frame => .ok frame
  | none => .error .frameHasNoValue

/-- The last lines of 43_operations.md rule R111: `FRAME` loses its value, `BUSY` goes to 0, the response is delivered. -/
def respondRead (op : ReadOp) (frame : Frame) (s : State) : State :=
  { s with
    inProgress := none
    frame := none
    response := some { status := .ok, result := some (resultOf op s.rom frame) } }

/-- The decoder's turn (43_operations.md rule R111): with the poll returned it decodes `FRAME` and responds. Without an
operation, or while the poll is pending, it has nothing to do (log entry 14). -/
def decoderTurn (s : State) : Host.Outcome State Fault Refusal :=
  match s.inProgress, s.poll with
  | some op, none =>
    match readFrame s with
    | .ok frame => .next (respondRead op frame s)
    | .error fault => .fault fault
  | _, _ => .next s

/-- An accepted operation runs for as long as the next events are its own: the acquirer's turns while its poll is
pending, then the decoder's turn. Any other event, or no event, leaves it in progress with `BUSY = 1`
(40_frame_acquire.md rules R64 and R66). Log entry 12. -/
def runOperation : List Event → State → Host.Outcome State Fault Refusal
  | .acquirerTurn level :: rest, s =>
    match s.poll with
    | some _ => runOperation rest (acquirerTurn level { s with events := rest })
    | none => .next s
  | .decoderTurn :: rest, s =>
    match s.poll with
    | some _ => .next s
    | none => decoderTurn { s with events := rest }
  | .request _ :: _, s => .next s
  | .reset :: _, s => .next s
  | [], s => .next s

/-- A read request (43_operations.md rules R111 and R112). -/
def performRead (op : ReadOp) (s : State) : Host.Outcome State Fault Refusal :=
  match refusalOfRead s with
  | some status => .next (refuse status s)
  | none =>
    match acceptRead op s with
    | .next t => runOperation t.events t
    | .fault fault => .fault fault
    | .refused why => .refused why

/-- Reset (70_reset_and_hazards.md rule R150): every piece of state at its reset value, an operation in progress
abandoned without response; the CorrectionTable is not affected. -/
def applyReset (s : State) : State := { State.reset with rom := s.rom, events := s.events }

/-- A table word presented by the host before all that is to happen (`State.withFetchWord`). -/
def presentWord (s : State) (nbits w : Nat) : State := { s with events := .request (tableWord nbits w) :: s.events }

end Sys2Proof.Machine
end

