-- ==== Sys2Proof/Machine/Init.lean ====
section
/-! DEFINITION. The initialisation step `INIT` (43_operations.md rule R110). -/

namespace Sys2Proof.Machine

/-- `INIT`: refused once initialised or while busy; otherwise it captures the configuration, drives the lines idle and
makes no poll (43_operations.md rule R110). -/
def execInit (strategy : Strategy) (pins : Pins) (s : State) : Host.Outcome State Fault Refusal :=
  if initRefused s then .next (refuse .refusedInit s)
  else
    .next
      { s with
        cfg := { valid := true, strategy := strategy, pins := pins }
        cs := false
        sck := false
        response := some { status := .ok, result := none } }

end Sys2Proof.Machine
end

