-- ==== Sys2Proof/Machine/Reads.lean ====
section
/-! DEFINITION. The five public read operations (43_operations.md rules R113 to R117). What an operation answers is its
line of `project` (`projectRdint` and so on); acceptance, the poll and the response are shared (`performRead`). -/

namespace Sys2Proof.Machine

/-- `RDINT` (43_operations.md rule R113). -/
def execRdint (s : State) : Host.Outcome State Fault Refusal := performRead .rdint s

/-- `RDCEL` (43_operations.md rule R114). -/
def execRdcel (s : State) : Host.Outcome State Fault Refusal := performRead .rdcel s

/-- `RDRAW` (43_operations.md rule R115). -/
def execRdraw (s : State) : Host.Outcome State Fault Refusal := performRead .rdraw s

/-- `RDFAH` (43_operations.md rule R116). -/
def execRdfah (s : State) : Host.Outcome State Fault Refusal := performRead .rdfah s

/-- `RDFLT` (43_operations.md rule R117). -/
def execRdflt (s : State) : Host.Outcome State Fault Refusal := performRead .rdflt s

end Sys2Proof.Machine
end

