-- ==== Sys2Proof/Machine/Dispatch.lean ====
section
/-! DEFINITION. One arm per constructor of Instr. -/

namespace Sys2Proof.Machine

def exec (i : Instr) (s : State) : Host.Outcome State Fault Refusal :=
  match i with
  | .rdint => Sys2Proof.Machine.execRdint s
  | .rdcel => Sys2Proof.Machine.execRdcel s
  | .rdraw => Sys2Proof.Machine.execRdraw s
  | .rdfah => Sys2Proof.Machine.execRdfah s
  | .rdflt => Sys2Proof.Machine.execRdflt s
  | .init strategy pins => Sys2Proof.Machine.execInit strategy pins s

end Sys2Proof.Machine
end

