-- ==== Sys2Proof/Machine/Step.lean ====
section
/-! DEFINITION. One step: the next event happens. -/

namespace Sys2Proof.Machine

/-- A host presents a word (43_operations.md rules R110 and R112). -/
def present (w : HostWord) (s : State) : Host.Outcome State Fault Refusal :=
  match decode w with
  | .ok i => exec i s
  | .error _ => .next (refuseReserved s)

/-- One step takes the next event; the response of an earlier step is no longer pending (log entry 5). With no event
nothing happens: the block waits (40_frame_acquire.md rule R66, 60_exceptions.md rule R145). -/
def step (s : State) : Host.Outcome State Fault Refusal :=
  match s.events with
  | [] => .next s
  | .request w :: rest => present w { s with events := rest, response := none }
  | .acquirerTurn level :: rest => .next (acquirerTurn level { s with events := rest, response := none })
  | .decoderTurn :: rest => decoderTurn { s with events := rest, response := none }
  | .reset :: rest => .next (applyReset { s with events := rest })

/-- The host presents this table word next (log entries 2 and 4). -/
def State.withFetchWord (s : State) (nbits w : Nat) : State := presentWord s nbits w

end Sys2Proof.Machine
end

