-- ==== Sys2Proof/Safety.lean ====
section
/-! DEFINITION. The terms statements are written in: the invariant of 10_state.md rule R29, a state that accepts a
read, a poll that is answered, the required property of `EXP`, and rounding. -/

namespace Sys2Proof.Safety

open Sys2Proof.Machine

/-- The state invariants of 10_state.md rule R29, with what 40_frame_acquire.md rule R60 adds for a poll in progress. -/
structure Inv (s : State) : Prop where
  /-- R29 (a) and (d): with `BUSY = 0` the lines are idle, no poll is pending and `FRAME` has no value. -/
  idle : s.busy = false → s.cs = false ∧ s.sck = false ∧ s.poll = none ∧ s.frame = none
  /-- R29 (b): `BUSY = 1` implies `CFG.VALID = 1`. -/
  busyValid : s.busy = true → s.cfg.valid = true
  /-- R29 (d): inside an operation `FRAME` has a value exactly once the poll has returned. -/
  framePhase : s.busy = true → (s.frame.isSome = true ↔ s.poll = none)
  /-- R67: on return from the poll the lines are idle. -/
  returned : s.poll = none → s.cs = false ∧ s.sck = false
  /-- R60, R61: never more than 32 periods; before `CS` is asserted nothing is sampled and `SCK` is low. -/
  pollForm : ∀ p, s.poll = some p →
    p.sampled ≤ 32 ∧ (s.cs = false → p = { word := 0, sampled := 0 } ∧ s.sck = false)

/-- A state in which a read is accepted (43_operations.md rule R112) and the acquirer can be invoked
(40_frame_acquire.md rule R60). -/
def Ready (s : State) : Prop := s.cfg.valid = true ∧ s.busy = false ∧ s.cs = false ∧ s.sck = false

/-- The acquirer's turns at which these levels are on `DATA`. -/
def turns (levels : List Bool) : List Event := levels.map .acquirerTurn

/-- These levels make one whole poll that returns `frame`: turn 0 asserts `CS`, turns `2k - 1` and `2k` are the rise and
the fall of SCK period `k`, turn 65 deasserts `CS`; the bit sampled in period `k` is bit `32 - k` of the frame
(40_frame_acquire.md rules R60 and R61). What is on `DATA` in the other turns is free. -/
def Delivers (levels : List Bool) (frame : Frame) : Prop :=
  levels.length = 66 ∧ ∀ k, 1 ≤ k → k ≤ 32 → levels[2 * k - 1]? = some (frame.getLsbD (32 - k))

/-- The instruction of a read operation. -/
def readInstr : ReadOp → Instr
  | .rdint => .rdint
  | .rdcel => .rdcel
  | .rdraw => .rdraw
  | .rdfah => .rdfah
  | .rdflt => .rdflt

/-- `s` with the response `result` delivered by a read whose poll has returned: every other field but the model's own
`events` is as `s` has it, but for what the operation leaves at its idle value (43_operations.md rule R111). -/
def answered (s : State) (result : BitVec 64) (rest : List Event) : State :=
  { s with
    inProgress := none, frame := none, poll := none, cs := false, sck := false,
    response := some { status := .ok, result := some result }, events := rest }

/-- `s` with the read `op` accepted and its poll pending (43_operations.md rule R111, 40_frame_acquire.md rule R66), and an
earlier response withdrawn (the model's choice, log entry 5). -/
def accepted (s : State) (op : ReadOp) : State :=
  { s with inProgress := some op, poll := some { word := 0, sampled := 0 }, response := none }

/-- The property the spec requires of `EXP`, and the only one a proof may assume (42_linearization.md rule R103). -/
def ExpAdmissible (exp : F64 → F64) : Prop :=
  (∀ x, isFinite x = true → -2 ≤ toRat x → toRat x ≤ 0 →
    isFinite (exp x) = true ∧ |(toRat (exp x) : ℝ) - Real.exp (toRat x : ℝ)| ≤ (ulp (exp x) : ℝ)) ∧
  exp 0x0000000000000000 = one ∧ exp 0x8000000000000000 = one

/-- Half a unit in the last place beyond the largest finite value: what rounds to infinity. -/
def overflowLimit : Rat := 2 ^ 1024 - 2 ^ 970

/-- `r` is the rational `x` rounded once to binary64, to nearest with ties to even: infinite from half a unit beyond
the largest finite value on (42_linearization.md rule R101). The sign of a zero is not said here. -/
def RoundsTo (x : Rat) (r : F64) : Prop :=
  (|x| < overflowLimit →
    isFinite r = true ∧
    ∀ c, isFinite c = true →
      |toRat r - x| ≤ |toRat c - x| ∧ (toRat c ≠ toRat r → |toRat c - x| = |toRat r - x| → r.toNat % 2 = 0)) ∧
  (overflowLimit ≤ x → r = infinity false) ∧
  (x ≤ -overflowLimit → r = infinity true)

/-- The `n`-th power of the series variable as `PowerSeries` forms it (42_linearization.md rule R86). -/
def power (x : F64) : Nat → F64
  | 0 => one
  | n + 1 => fmul (power x n) x

end Sys2Proof.Safety
end

