-- ==== Sys2Proof/Certificates/Slice0/Obligations.lean ====
section
/-! DEFINITION. What is claimed of the model, for the provers. -/

open Sys2Proof Sys2Proof.Machine Sys2Proof.Safety

/-! ### Reset, events, decoding -/

/-- R28: the values the spec states for the reset state. `CFG.STRATEGY` and `CFG.PINS` are unspecified there and not
spoken of; the contents of the CorrectionTable are PRESUMED (log entry 6). -/
def Obligations.ResetStateIsAsStated : Prop :=
  State.reset.cfg.valid = false ∧ State.reset.frame = none ∧ State.reset.busy = false ∧ State.reset.cs = false ∧
    State.reset.sck = false ∧ State.reset.response = none

/-- R29: the invariant holds at reset. -/
def Obligations.ResetMeetsInvariant : Prop := Inv State.reset

/-- A step presents the next request: where its word decodes to an instruction, the step is `exec` of it at the state
without that event and with no response pending (log entry 5). -/
def Obligations.StepRunsTheDecodedInstruction : Prop :=
  ∀ (s : State) (w : HostWord) (i : Instr) (rest : List Event),
    s.events = .request w :: rest → decode w = .ok i → step s = exec i { s with events := rest, response := none }

/-- The same for a word placed by the host. -/
def Obligations.PlacedWordIsRunNext : Prop :=
  ∀ (s : State) (nbits w : Nat) (i : Instr),
    decodeTableWord nbits w = some i → step (s.withFetchWord nbits w) = exec i { s with response := none }

/-- With nothing to happen, nothing happens (R145: between operations the block is idle). -/
def Obligations.NoEventChangesNothing : Prop := ∀ s : State, s.events = [] → step s = .next s

/-- R49, R53, R57: words written out from the spec's tables. -/
def Obligations.TableWordsDecode : Prop :=
  decode (.cmd 0b000) = .ok .rdint ∧ decode (.cmd 0b001) = .ok .rdcel ∧ decode (.cmd 0b010) = .ok .rdraw ∧
    decode (.cmd 0b011) = .ok .rdfah ∧ decode (.cmd 0b100) = .ok .rdflt ∧
    decode (.cmd 0b101) = .error (.reservedOp 0b101) ∧ decode (.cmd 0b110) = .error (.reservedOp 0b110) ∧
    decode (.cmd 0b111) = .error (.reservedOp 0b111) ∧
    decode (.initCmd 0b0000001100000010000000011) = .ok (.init .hwClocked { cs := 1, sck := 2, data := 3 }) ∧
    decode (.initCmd 0b0000001100000010000000010) = .ok (.init .swTimed { cs := 1, sck := 2, data := 3 })

/-- Decoding the encoding of a well-formed instruction gives it back, with every operand. -/
def Obligations.DecodeOfEncode : Prop := ∀ i : Instr, i.wf = true → decode (encode i) = .ok i

/-- Encoding what a word decodes to gives the word back, and only well-formed instructions are decoded. -/
def Obligations.EncodeOfDecode : Prop :=
  ∀ (w : HostWord) (i : Instr), decode w = .ok i → encode i = w ∧ i.wf = true

/-- R51: the status codes. -/
def Obligations.StatusCodesAreAsTabled : Prop :=
  statusCode .ok = 0b00 ∧ statusCode .refusedInit = 0b01 ∧ statusCode .refusedBusy = 0b10 ∧
    statusCode .refusedReserved = 0b11

/-! ### INIT and the acceptance of requests -/

/-- R110: `INIT` is refused once initialised or while busy, and otherwise captures the configuration, drives the lines
idle and responds `OK`; in both cases every other field is as it was. After reset it always succeeds. -/
def Obligations.InitCapturesConfigurationOnce : Prop :=
  ∀ (s : State) (strategy : Strategy) (pins : Pins),
    (s.cfg.valid = true ∨ s.busy = true →
      exec (.init strategy pins) s = .next { s with response := some { status := .refusedInit, result := none } }) ∧
    (s.cfg.valid = false → s.busy = false →
      exec (.init strategy pins) s =
        .next { s with
          cfg := { valid := true, strategy := strategy, pins := pins }
          cs := false
          sck := false
          response := some { status := .ok, result := none } }) ∧
    (∃ t, exec (.init strategy pins) State.reset = .next t ∧ t.response = some { status := .ok, result := none })

/-- R112, R53, R137: a `CMD` request is refused in this order of tests, and a refused request changes nothing but the
response outputs, whose `RESULT` has no value; otherwise the operation the code selects runs. -/
def Obligations.RequestTestsAreMadeInOrder : Prop :=
  ∀ (s : State) (w : Cmd),
    present (.cmd w) s =
      if s.busy = true then .next { s with response := some { status := .refusedBusy, result := none } }
      else if s.cfg.valid = false then .next { s with response := some { status := .refusedInit, result := none } }
      else if 5 ≤ w.toNat then .next { s with response := some { status := .refusedReserved, result := none } }
      else
        exec (if w = 0b000 then .rdint else if w = 0b001 then .rdcel else if w = 0b010 then .rdraw
          else if w = 0b011 then .rdfah else .rdflt) s

/-- A read that is not accepted, as an instruction: nothing but the response outputs changes. -/
def Obligations.ReadIsRefusedUnlessReady : Prop :=
  ∀ (s : State) (op : ReadOp),
    (s.busy = true →
      exec (readInstr op) s = .next { s with response := some { status := .refusedBusy, result := none } }) ∧
    (s.busy = false → s.cfg.valid = false →
      exec (readInstr op) s = .next { s with response := some { status := .refusedInit, result := none } })

/-! ### The five reads

The value of `RESULT` is the rules'. How a poll is spread over the acquirer's turns and the decoder's, that `exec` runs them
in one go, and the schedule `events` itself, are the model's: log entries 4, 10, 11 and 12. -/

/-- R113: `RDINT`. The premise names the one poll's answer (R66: it may never come). -/
def Obligations.RdintAnswersInternalTemperature : Prop :=
  ∀ (s : State) (levels : List Bool) (frame : Frame) (rest : List Event),
    Ready s → Delivers levels frame → s.events = turns levels ++ .decoderTurn :: rest →
      exec .rdint s = .next (answered s (internalTempC frame) rest)

/-- R114: `RDCEL`: "not a number" for a faulted frame, else the linearized value. -/
def Obligations.RdcelAnswersCorrectedTemperature : Prop :=
  ∀ (s : State) (levels : List Bool) (frame : Frame) (rest : List Event),
    Ready s → Delivers levels frame → s.events = turns levels ++ .decoderTurn :: rest →
      exec .rdcel s =
        .next (answered s
          (if frame.toNat % 8 ≠ 0 then nanBits
            else linearize Config.exp s.rom (internalTempC frame) (rawHotJunctionC frame)) rest)

/-- R115: `RDRAW`: "not a number" for a faulted frame, else the scaled field. -/
def Obligations.RdrawAnswersRawTemperature : Prop :=
  ∀ (s : State) (levels : List Bool) (frame : Frame) (rest : List Event),
    Ready s → Delivers levels frame → s.events = turns levels ++ .decoderTurn :: rest →
      exec .rdraw s =
        .next (answered s
          (if frame.toNat % 8 ≠ 0 then nanBits else fmul (i2f (sext 14 (frame.toNat / 2 ^ 18))) hjLsb) rest)

/-- R116, R118: `RDFAH`: the corrected value times 9, over 5, plus 32, and "not a number" unchanged. -/
def Obligations.RdfahAnswersFahrenheit : Prop :=
  ∀ (s : State) (levels : List Bool) (frame : Frame) (rest : List Event),
    Ready s → Delivers levels frame → s.events = turns levels ++ .decoderTurn :: rest →
      exec .rdfah s =
        .next (answered s
          (let c := correctedHotJunctionC Config.exp s.rom frame
            if isNaN c then nanBits else fadd (fdiv (fmul c nine) five) thirtyTwo) rest)

/-- R117: `RDFLT`: bits 2:0 of the result are the frame's, bits 63:3 are zero. -/
def Obligations.RdfltAnswersFaultCode : Prop :=
  ∀ (s : State) (levels : List Bool) (frame : Frame) (rest : List Event),
    Ready s → Delivers levels frame → s.events = turns levels ++ .decoderTurn :: rest →
      exec .rdflt s = .next (answered s (BitVec.ofNat 64 (frame.toNat % 8)) rest)

/-- R66: a read whose acquirer takes no turn is accepted and stays in progress without a response. That an earlier
response is withdrawn (`response := none` in `accepted`) is the model's choice, log entry 5. -/
def Obligations.ReadWaitsForTheAcquirer : Prop :=
  ∀ (s : State) (op : ReadOp),
    Ready s → (∀ level rest, s.events ≠ .acquirerTurn level :: rest) →
      exec (readInstr op) s = .next (accepted s op)

/-- R66: while the acquirer's turns are withheld and no reset comes, the operation stays in progress for ever and is
never answered, whatever requests are presented. -/
def Obligations.HungPollIsNeverAnswered : Prop :=
  ∀ (n : Nat) (s : State),
    s.busy = true → s.poll.isSome = true → (∀ e ∈ s.events, (∃ w, e = .request w) ∨ e = .decoderTurn) →
      ∃ t, Host.Core.run Sys2Proof.core n s = .next t ∧ t.inProgress = s.inProgress ∧ t.poll = s.poll ∧ t.cs = s.cs ∧
        t.sck = s.sck ∧ t.frame = s.frame ∧ t.cfg = s.cfg ∧ t.rom = s.rom ∧
        ∀ r, t.response = some r → s.response = some r ∨ r.status ≠ .ok

/-- R60, R61: 66 turns of the acquirer on a pending poll return the word whose bit `32 - k` was sampled in period `k`,
leave `CS` deasserted and `SCK` low, and change nothing else but the model's own `events` and the response outputs: that
each of these steps withdraws an earlier response is the model's choice, log entry 5; the turns are log entries 4 and
10. -/
def Obligations.FrameReadAssemblesSampledBits : Prop :=
  ∀ (s : State) (op : ReadOp) (levels : List Bool) (frame : Frame) (rest : List Event),
    s.inProgress = some op → s.poll = some { word := 0, sampled := 0 } → s.cs = false → s.sck = false →
      Delivers levels frame → s.events = turns levels ++ rest →
        Host.Core.run Sys2Proof.core 66 s =
          .next { s with poll := none, frame := some frame, response := none, events := rest }

/-- R112 (and 95_test_vectors.md V116): requests presented between the acquirer's turns do not disturb the operation in
progress: with or without them it ends in the same state, with the same response. Where the poll is still pending at the
decoder's turn, the response is the same because that step withdraws it: the model's choice, log entry 5. -/
def Obligations.RequestsDoNotDisturbOperation : Prop :=
  ∀ (s : State) (between rest : List Event),
    s.busy = true → (∀ e ∈ between, (∃ w, e = .request w) ∨ ∃ level, e = .acquirerTurn level) →
      Host.Core.run Sys2Proof.core (between.length + 1) { s with events := between ++ .decoderTurn :: rest } =
        Host.Core.run Sys2Proof.core
          ((between.filter fun e => match e with | .acquirerTurn _ => true | _ => false).length + 1)
          { s with
            events :=
              (between.filter fun e => match e with | .acquirerTurn _ => true | _ => false) ++ .decoderTurn :: rest }

/-- R111, R69: running a read in one go is running its acceptance and then the acquirer's and the decoder's turns one
step at a time. -/
def Obligations.ReadIsItsTurnsOneByOne : Prop :=
  ∀ (s t : State) (op : ReadOp),
    Ready s → exec (readInstr op) s = .next t → ∃ n, Host.Core.run Sys2Proof.core n (accepted s op) = .next t

/-- R111, R63: the response is a function of the operation and of the one frame: two machines with the same
CorrectionTable that differ in all else, the transfer strategy included, answer alike. -/
def Obligations.ResponseDependsOnFrameAlone : Prop :=
  ∀ (s s' t t' : State) (op : ReadOp) (levels levels' : List Bool) (frame : Frame) (rest rest' : List Event),
    Ready s → Ready s' → s.rom = s'.rom → Delivers levels frame → Delivers levels' frame →
      s.events = turns levels ++ .decoderTurn :: rest → s'.events = turns levels' ++ .decoderTurn :: rest' →
        exec (readInstr op) s = .next t → exec (readInstr op) s' = .next t' → t.response = t'.response

/-- R139: after an error the block is in the same state as after a success: whatever the two frames were, only the
response differs. -/
def Obligations.ErrorLeavesNoTrace : Prop :=
  ∀ (s : State) (op : ReadOp) (levels levels' : List Bool) (frame frame' : Frame) (rest : List Event),
    Ready s → Delivers levels frame → Delivers levels' frame' →
      ∃ t t', exec (readInstr op) { s with events := turns levels ++ .decoderTurn :: rest } = .next t ∧
        exec (readInstr op) { s with events := turns levels' ++ .decoderTurn :: rest } = .next t' ∧
        { t with response := none } = { t' with response := none } ∧ t.busy = false ∧ t.cs = false ∧ t.frame = none

/-! ### Invariants and whole-machine rules -/

/-- R29: every step keeps the invariant, from every state that meets it. -/
def Obligations.StepKeepsInvariant : Prop := ∀ s t : State, Inv s → step s = .next t → Inv t

/-- R133: from a state that meets the invariant no step stops, whatever event comes. -/
def Obligations.StepNeverStops : Prop := ∀ s : State, Inv s → ∃ t, step s = .next t

/-- R67: after any number of any events from reset, with any CorrectionTable, `BUSY = 0` finds `CS` deasserted. The
other clauses are R29's (`SCK` low, `BUSY = 1` implies `CFG.VALID = 1`) or rest on the model's reading: that a poll that
is not pending leaves the lines idle (log entry 10), that nothing has stopped the machine (log entry 13), and the
schedule itself (log entry 4). -/
def Obligations.NoReachableIdleStateHasChipSelectAsserted : Prop :=
  ∀ (n : Nat) (rom : Rom) (events : List Event),
    ∃ t, Host.Core.run Sys2Proof.core n { State.reset with rom := rom, events := events } = .next t ∧
      (t.busy = false → t.cs = false ∧ t.sck = false) ∧ (t.poll = none → t.cs = false ∧ t.sck = false) ∧
        (t.busy = true → t.cfg.valid = true)

/-- R51: a refusal gives `RESULT` no value: no event leaves a refusal that carries one on the response outputs. That an
event first withdraws the response that stood there is the model's choice, log entry 5. -/
def Obligations.RefusalCarriesNoResult : Prop :=
  ∀ s t : State, s.events ≠ [] → step s = .next t →
    ∀ r, t.response = some r → r.status ≠ .ok → r.result = none

/-- R150: reset puts every piece of state whose reset value the spec states at it and abandons an operation in progress
without a response; the CorrectionTable is not affected. -/
def Obligations.ResetAbandonsTheOperation : Prop :=
  ∀ (s : State) (rest : List Event), s.events = .reset :: rest →
    ∃ t, step s = .next t ∧ t.cfg.valid = false ∧ t.busy = false ∧ t.frame = none ∧ t.poll = none ∧ t.cs = false ∧
      t.sck = false ∧ t.response = none ∧ t.rom = s.rom ∧ t.events = rest

/-- R13, R29 (c): the configuration does not change while `CFG.VALID = 1`, except at reset. -/
def Obligations.ConfigurationIsImmutable : Prop :=
  ∀ s t : State, s.cfg.valid = true → (∀ rest, s.events ≠ .reset :: rest) → step s = .next t → t.cfg = s.cfg

/-- R40: nothing can write the CorrectionTable. -/
def Obligations.CorrectionTableNeverChanges : Prop := ∀ s t : State, step s = .next t → t.rom = s.rom

/-! ### The frame decoder -/

/-- R52: bits 3, 16 and 17 of the frame have no effect on the decoded reading nor on any output of any operation. -/
def Obligations.IgnoredFrameBitsHaveNoEffect : Prop :=
  ∀ (op : ReadOp) (exp : F64 → F64) (rom : Rom) (f g : Frame),
    f &&& 0xFFFCFFF7 = g &&& 0xFFFCFFF7 →
      decodeFrame exp rom f = decodeFrame exp rom g ∧ resultOf op rom f = resultOf op rom g

/-- R75: what each output of the decoder depends on, and "not a number" on a faulted frame. -/
def Obligations.OutputsDependOnTheirFields : Prop :=
  ∀ (exp : F64 → F64) (rom : Rom) (f g : Frame),
    (f.extractLsb 15 4 = g.extractLsb 15 4 → internalTempC f = internalTempC g) ∧
    (f.extractLsb 2 0 = g.extractLsb 2 0 → faultCode f = faultCode g) ∧
    (f.extractLsb 31 18 = g.extractLsb 31 18 → f.extractLsb 2 0 = g.extractLsb 2 0 →
      rawHotJunctionC f = rawHotJunctionC g) ∧
    (f.extractLsb 2 0 ≠ 0 →
      isNaN (rawHotJunctionC f) = true ∧ isNaN (correctedHotJunctionC exp rom f) = true)

/-- R72: the internal temperature is exactly a sixteenth of the signed field, a finite number from -128 to 127.9375,
never negative zero, and different for different fields. -/
def Obligations.InternalTemperatureIsExact : Prop :=
  ∀ f g : Frame,
    isFinite (internalTempC f) = true ∧ toRat (internalTempC f) = ((f.extractLsb 15 4).toInt : Rat) / 16 ∧
      -128 ≤ toRat (internalTempC f) ∧ toRat (internalTempC f) ≤ 127.9375 ∧
      (f.extractLsb 15 4 = 0 → internalTempC f = 0x0000000000000000) ∧
      (internalTempC f = internalTempC g → f.extractLsb 15 4 = g.extractLsb 15 4)

/-- R74: on a fault-free frame the raw temperature is exactly a quarter of the signed field, a finite number from
-2048 to 2047.75, never negative zero. -/
def Obligations.RawTemperatureIsExact : Prop :=
  ∀ f : Frame, f.extractLsb 2 0 = 0 →
    isFinite (rawHotJunctionC f) = true ∧ toRat (rawHotJunctionC f) = ((f.extractLsb 31 18).toInt : Rat) / 4 ∧
      -2048 ≤ toRat (rawHotJunctionC f) ∧ toRat (rawHotJunctionC f) ≤ 2047.75 ∧
      (f.extractLsb 31 18 = 0 → rawHotJunctionC f = 0x0000000000000000)

/-- R77: the definition, the shift form on the 32-bit word (for every field, and for the two the block has) and the
masked negation give the same operand. -/
def Obligations.SignExtensionFormsAgree : Prop :=
  (∀ (w : BitVec 32) (N lo : Nat), 0 < N → N + lo ≤ 32 →
    sext N (w.toNat / 2 ^ lo % 2 ^ N) = ((w <<< (32 - N - lo)).sshiftRight (32 - N)).toInt) ∧
  (∀ f : Frame, hotJunction f = (f.sshiftRight 18).toInt ∧ coldJunction f = ((f <<< 16).sshiftRight 20).toInt) ∧
    ∀ N v : Nat, 0 < N → v < 2 ^ N → v.testBit (N - 1) = true →
      sext N v = -(((2 ^ N - 1 - v + 1) % 2 ^ N : Nat) : Int)

/-! ### Binary64 -/

/-- R7, R101: sums and differences of finite values are rounded once, to nearest with ties to even; an exact zero sum or
difference has the IEEE sign (R85: `tr = ti` gives `+0.0`). -/
def Obligations.AddAndSubtractRoundOnce : Prop :=
  ∀ a b : F64, isFinite a = true → isFinite b = true →
    RoundsTo (toRat a + toRat b) (fadd a b) ∧ RoundsTo (toRat a - toRat b) (fsub a b) ∧
      (toRat a + toRat b = 0 →
        fadd a b = if signBit a && signBit b then 0x8000000000000000 else 0x0000000000000000) ∧
      (toRat a - toRat b = 0 →
        fsub a b = if signBit a && !signBit b then 0x8000000000000000 else 0x0000000000000000)

/-- R7, R101, R102: sums and differences with an operand that is no finite number, of which there are only NaNs and the
two infinities. Of the NaN that results nothing more is said (R104, log entry 9). -/
def Obligations.AddAndSubtractSpecialOperands : Prop :=
  ∀ (a b : F64) (neg : Bool),
    (isNaN a = true ∨ isFinite a = true ∨ a = infinity false ∨ a = infinity true) ∧
    (isNaN a = true ∨ isNaN b = true → isNaN (fadd a b) = true ∧ isNaN (fsub a b) = true) ∧
    (isFinite b = true →
      fadd (infinity neg) b = infinity neg ∧ fadd b (infinity neg) = infinity neg ∧
        fsub (infinity neg) b = infinity neg ∧ fsub b (infinity neg) = infinity (!neg)) ∧
    fadd (infinity neg) (infinity neg) = infinity neg ∧ isNaN (fadd (infinity neg) (infinity (!neg))) = true ∧
    isNaN (fsub (infinity neg) (infinity neg)) = true ∧ fsub (infinity neg) (infinity (!neg)) = infinity neg

/-- R7, R101, R102: products with an operand that is no finite number. -/
def Obligations.MultiplySpecialOperands : Prop :=
  ∀ (a b : F64) (neg neg' : Bool),
    (isNaN a = true ∨ isNaN b = true → isNaN (fmul a b) = true) ∧
    (isFinite b = true → toRat b ≠ 0 →
      fmul (infinity neg) b = infinity (neg != signBit b) ∧ fmul b (infinity neg) = infinity (signBit b != neg)) ∧
    (isFinite b = true → toRat b = 0 →
      isNaN (fmul (infinity neg) b) = true ∧ isNaN (fmul b (infinity neg)) = true) ∧
    fmul (infinity neg) (infinity neg') = infinity (neg != neg')

/-- R7, R101, R102: quotients with an operand that is no finite number, and by zero. -/
def Obligations.DivideSpecialOperands : Prop :=
  ∀ (a b : F64) (neg neg' : Bool),
    (isNaN a = true ∨ isNaN b = true → isNaN (fdiv a b) = true) ∧
    (isFinite b = true →
      fdiv (infinity neg) b = infinity (neg != signBit b) ∧
        fdiv b (infinity neg) = if signBit b != neg then 0x8000000000000000 else 0x0000000000000000) ∧
    isNaN (fdiv (infinity neg) (infinity neg')) = true ∧
    (isFinite a = true → isFinite b = true → toRat b = 0 →
      (toRat a ≠ 0 → fdiv a b = infinity (signBit a != signBit b)) ∧ (toRat a = 0 → isNaN (fdiv a b) = true))

/-- R7, R101: products are rounded once, with the sign of the operands' signs. -/
def Obligations.MultiplyRoundsOnce : Prop :=
  ∀ a b : F64, isFinite a = true → isFinite b = true →
    RoundsTo (toRat a * toRat b) (fmul a b) ∧ signBit (fmul a b) = (signBit a != signBit b)

/-- R7, R101: quotients by a number that is not zero are rounded once, with the sign of the operands' signs. -/
def Obligations.DivideRoundsOnce : Prop :=
  ∀ a b : F64, isFinite a = true → isFinite b = true → toRat b ≠ 0 →
    RoundsTo (toRat a / toRat b) (fdiv a b) ∧ signBit (fdiv a b) = (signBit a != signBit b)

/-- R7: the comparisons order the finite values as the numbers they denote and the infinities at the ends, and are false
on a NaN. -/
def Obligations.ComparisonsOrderValues : Prop :=
  ∀ a b : F64,
    (isFinite a = true → isFinite b = true →
      (flt a b = true ↔ toRat a < toRat b) ∧ (fge a b = true ↔ toRat b ≤ toRat a)) ∧
    (isFinite a = true →
      flt a (infinity false) = true ∧ fge a (infinity false) = false ∧ flt (infinity false) a = false ∧
        fge (infinity false) a = true ∧ flt a (infinity true) = false ∧ fge a (infinity true) = true ∧
        flt (infinity true) a = true ∧ fge (infinity true) a = false) ∧
    (isNaN a = true ∨ isNaN b = true → flt a b = false ∧ fge a b = false)

/-- R7: the conversion of an integer below 2^53 in magnitude is exact. -/
def Obligations.IntegerConversionIsExact : Prop :=
  ∀ n : Int, n.natAbs < 2 ^ 53 → isFinite (i2f n) = true ∧ toRat (i2f n) = n

/-- R25: each scalar constant has the tabled bits and is the binary64 value nearest its numeral. -/
def Obligations.ScalarConstantsAreNearest : Prop :=
  (hjLsb = 0x3FD0000000000000 ∧ hjLsb = lit false 25 (-2)) ∧ (cjLsb = 0x3FB0000000000000 ∧ cjLsb = lit false 625 (-4)) ∧
    (kLin = 0x3FA52220BC382A13 ∧ kLin = lit false 41276 (-6)) ∧ (vMid = 0x4034A4DD2F1A9FBE ∧ vMid = lit false 20644 (-3)) ∧
    (vMax = 0x404B716872B020C5 ∧ vMax = lit false 54886 (-3)) ∧ (zero = 0x0000000000000000 ∧ zero = lit false 0 0) ∧
    (nine = 0x4022000000000000 ∧ nine = lit false 9 0) ∧ (five = 0x4014000000000000 ∧ five = lit false 5 0) ∧
    (thirtyTwo = 0x4040000000000000 ∧ thirtyTwo = lit false 32 0)

/-! ### The linearization -/

/-- R95: the inverse set is selected by strict tests against 0, 20.644 and 54.886; there is no lower limit; both zeros
select the middle set, minus infinity the negative set (no lower limit), and plus infinity and a NaN select none. -/
def Obligations.InverseSetIsSelectedByVoltage : Prop :=
  ∀ v : F64,
    (isFinite v = true →
      invSelect v =
        if toRat v < 0 then .neg else if toRat v < toRat vMid then .mid else if toRat v < toRat vMax then .high
        else .none) ∧
    invSelect (infinity true) = .neg ∧ invSelect (infinity false) = .none ∧ (isNaN v = true → invSelect v = .none)

/-- R96 to R99: which coefficient series is evaluated for a voltage, or "not a number"; for every CorrectionTable and
every voltage, the infinities and the NaNs included. -/
def Obligations.InverseEvaluatesTheSelectedSeries : Prop :=
  ∀ (rom : Rom) (v : F64),
    (isFinite v = true →
      inverse rom v =
        if toRat v < 0 then powerSeries rom.invNeg.toList v
        else if toRat v < toRat vMid then powerSeries rom.invMid.toList v
        else if toRat v < toRat vMax then powerSeries rom.invHigh.toList v
        else nanBits) ∧
    inverse rom (infinity true) = powerSeries rom.invNeg.toList (infinity true) ∧
    inverse rom (infinity false) = nanBits ∧ (isNaN v = true → inverse rom v = nanBits)

/-- R85, R87 to R90, R92, R100: the steps of the linearization written out, for every exponential, CorrectionTable, raw
temperature and finite internal temperature: the forward set is selected by `ti >= 0`, both zeros on the positive side,
and only that set has the Gaussian term, which is added last. -/
def Obligations.LinearizationFollowsItsSteps : Prop :=
  ∀ (exp : F64 → F64) (rom : Rom) (ti tr : F64), isFinite ti = true →
    (coldJunctionVoltage exp rom ti =
      if 0 ≤ toRat ti then
        fadd (powerSeries rom.fwdPos.toList ti)
          (fmul rom.gauss[0]
            (exp (fmul rom.gauss[1] (fmul (fsub ti rom.gauss[2]) (fsub ti rom.gauss[2])))))
      else powerSeries rom.fwdNeg.toList ti) ∧
    totalVoltage exp rom ti tr = fadd (fmul (fsub tr ti) kLin) (coldJunctionVoltage exp rom ti) ∧
    linearize exp rom ti tr = inverse rom (totalVoltage exp rom ti tr)

/-- R86: one more zero coefficient at the end changes no sum that is a number, as long as the power it meets is
finite. -/
def Obligations.TrailingZeroCoefficientIsIdle : Prop :=
  ∀ (c : List F64) (x : F64),
    isFinite (power x c.length) = true → isNaN (powerSeries c x) = false → powerSeries (c ++ [zero]) x = powerSeries c x

/-- R86, R101: from `+0.0` the series adds the terms in index order, each power the previous one times the variable. -/
def Obligations.SeriesAddsTermsInOrder : Prop :=
  (∀ x : F64, powerSeries [] x = 0x0000000000000000 ∧ power x 0 = 0x3FF0000000000000) ∧
  ∀ (c : List F64) (last x : F64),
    power x (c.length + 1) = fmul (power x c.length) x ∧
      powerSeries (c ++ [last]) x = fadd (powerSeries c x) (fmul last (power x c.length))

/-- R130: a device fault makes the three hot-junction results "not a number"; the code is the frame's, not 0, and the
internal temperature is that of the frame without its fault bits. -/
def Obligations.DeviceFaultInvalidatesHotJunction : Prop :=
  ∀ (rom : Rom) (f : Frame), f.extractLsb 2 0 ≠ 0 →
    isNaN (resultOf .rdraw rom f) = true ∧ isNaN (resultOf .rdcel rom f) = true ∧
      isNaN (resultOf .rdfah rom f) = true ∧ resultOf .rdflt rom f = (f.extractLsb 2 0).setWidth 64 ∧
      resultOf .rdflt rom f ≠ 0 ∧ resultOf .rdint rom f = resultOf .rdint rom (f &&& 0xFFFFFFF8)

/-- R131: on a fault-free frame whose total voltage is at or above 54.886 mV the corrected and Fahrenheit results are
"not a number", the raw result is a number and the fault code is 0. -/
def Obligations.OutOfRangeInvalidatesCorrectedOnly : Prop :=
  ∀ (rom : Rom) (f : Frame),
    f.extractLsb 2 0 = 0 →
      fge (totalVoltage Config.exp rom (internalTempC f) (rawHotJunctionC f)) vMax = true →
        isNaN (resultOf .rdcel rom f) = true ∧ isNaN (resultOf .rdfah rom f) = true ∧
          resultOf .rdraw rom f = fmul (i2f (hotJunction f)) hjLsb ∧ isNaN (resultOf .rdraw rom f) = false ∧
          resultOf .rdint rom f = internalTempC f ∧ resultOf .rdflt rom f = 0

/-- R116: `RDFAH` is "not a number" exactly when `RDCEL` on the same frame is. -/
def Obligations.FahrenheitIsNaNExactlyWithCelsius : Prop :=
  ∀ (rom : Rom) (f : Frame), isNaN (resultOf .rdfah rom f) = isNaN (resultOf .rdcel rom f)

/-- R118: the data points of the Fahrenheit conversion. -/
def Obligations.FahrenheitDataPoints : Prop :=
  celsiusToFahrenheit 0x4059000000000000 = 0x406A800000000000 ∧
    celsiusToFahrenheit 0xC044000000000000 = 0xC044000000000000 ∧
    celsiusToFahrenheit 0x0000000000000000 = 0x4040000000000000 ∧
    celsiusToFahrenheit 0x4042800000000000 = 0x4058A66666666666

/-- R89: with the default CorrectionTable (PRESUMED, log entry 6) every reachable non-negative internal temperature
hands `EXP` a finite argument between -2 and 0. -/
def Obligations.GaussArgumentIsInRange : Prop :=
  ∀ f : Frame, 0 ≤ toRat (internalTempC f) →
    isFinite (gaussArgument Rom.default (internalTempC f)) = true ∧
      -2 ≤ toRat (gaussArgument Rom.default (internalTempC f)) ∧
      toRat (gaussArgument Rom.default (internalTempC f)) ≤ 0

/-- R100, R102: with the default CorrectionTable (PRESUMED, log entry 6) and an admissible `EXP`, the total voltage of
every fault-free frame is finite, and the corrected temperature is "not a number" exactly when it is at or above 54.886
mV, and finite otherwise. -/
def Obligations.LinearizationIsFiniteBelowTheLimit : Prop :=
  ∀ (exp : F64 → F64), ExpAdmissible exp → ∀ f : Frame, f.extractLsb 2 0 = 0 →
    isFinite (totalVoltage exp Rom.default (internalTempC f) (rawHotJunctionC f)) = true ∧
      (isNaN (correctedHotJunctionC exp Rom.default f) = true ↔
        toRat vMax ≤ toRat (totalVoltage exp Rom.default (internalTempC f) (rawHotJunctionC f))) ∧
      (toRat (totalVoltage exp Rom.default (internalTempC f) (rawHotJunctionC f)) < toRat vMax →
        isFinite (correctedHotJunctionC exp Rom.default f) = true)

/-- 95_test_vectors.md X5 and V33: the document's scenario, for an exponential correctly rounded at its one argument,
with the default CorrectionTable (PRESUMED, log entry 6). -/
def Obligations.ScenarioAtHundredDegrees : Prop :=
  ∀ exp : F64 → F64, exp 0xBFF3B010BC4E1288 = 0x3FD2B299D59C05F2 →
    thermocoupleVoltage (internalTempC 0x06401900) (rawHotJunctionC 0x06401900) = 0x4008C3FE5C91D14E ∧
      coldJunctionVoltage exp Rom.default (internalTempC 0x06401900) = 0x3FF000FE208F1146 ∧
      correctedHotJunctionC exp Rom.default 0x06401900 = 0x4058FD8FA1FDE8FF
end

