-- ==== Sys2Proof/Laws/State.lean ====
section
/-! SUPPORT. What each total update of the state does to each field, one lemma per field, and to `BUSY`. -/

namespace Sys2Proof.Machine

@[simp] theorem refuse_cfg (status : Status) (s : State) : (refuse status s).cfg = s.cfg := rfl
@[simp] theorem refuse_inProgress (status : Status) (s : State) : (refuse status s).inProgress = s.inProgress := rfl
@[simp] theorem refuse_frame (status : Status) (s : State) : (refuse status s).frame = s.frame := rfl
@[simp] theorem refuse_poll (status : Status) (s : State) : (refuse status s).poll = s.poll := rfl
@[simp] theorem refuse_cs (status : Status) (s : State) : (refuse status s).cs = s.cs := rfl
@[simp] theorem refuse_sck (status : Status) (s : State) : (refuse status s).sck = s.sck := rfl
@[simp] theorem refuse_response (status : Status) (s : State) : (refuse status s).response = some { status := status, result := none } := rfl
@[simp] theorem refuse_rom (status : Status) (s : State) : (refuse status s).rom = s.rom := rfl
@[simp] theorem refuse_events (status : Status) (s : State) : (refuse status s).events = s.events := rfl
@[simp] theorem refuse_busy (status : Status) (s : State) : (refuse status s).busy = s.busy := rfl

@[simp] theorem refuseReserved_cfg (s : State) : (refuseReserved s).cfg = s.cfg := rfl
@[simp] theorem refuseReserved_inProgress (s : State) : (refuseReserved s).inProgress = s.inProgress := rfl
@[simp] theorem refuseReserved_frame (s : State) : (refuseReserved s).frame = s.frame := rfl
@[simp] theorem refuseReserved_poll (s : State) : (refuseReserved s).poll = s.poll := rfl
@[simp] theorem refuseReserved_cs (s : State) : (refuseReserved s).cs = s.cs := rfl
@[simp] theorem refuseReserved_sck (s : State) : (refuseReserved s).sck = s.sck := rfl
@[simp] theorem refuseReserved_response (s : State) : (refuseReserved s).response = some { status := refusalOfReserved s, result := none } := rfl
@[simp] theorem refuseReserved_rom (s : State) : (refuseReserved s).rom = s.rom := rfl
@[simp] theorem refuseReserved_events (s : State) : (refuseReserved s).events = s.events := rfl
@[simp] theorem refuseReserved_busy (s : State) : (refuseReserved s).busy = s.busy := rfl

@[simp] theorem respondRead_cfg (op : ReadOp) (frame : Frame) (s : State) : (respondRead op frame s).cfg = s.cfg := rfl
@[simp] theorem respondRead_inProgress (op : ReadOp) (frame : Frame) (s : State) : (respondRead op frame s).inProgress = none := rfl
@[simp] theorem respondRead_frame (op : ReadOp) (frame : Frame) (s : State) : (respondRead op frame s).frame = none := rfl
@[simp] theorem respondRead_poll (op : ReadOp) (frame : Frame) (s : State) : (respondRead op frame s).poll = s.poll := rfl
@[simp] theorem respondRead_cs (op : ReadOp) (frame : Frame) (s : State) : (respondRead op frame s).cs = s.cs := rfl
@[simp] theorem respondRead_sck (op : ReadOp) (frame : Frame) (s : State) : (respondRead op frame s).sck = s.sck := rfl
@[simp] theorem respondRead_response (op : ReadOp) (frame : Frame) (s : State) : (respondRead op frame s).response = some { status := .ok, result := some (resultOf op s.rom frame) } := rfl
@[simp] theorem respondRead_rom (op : ReadOp) (frame : Frame) (s : State) : (respondRead op frame s).rom = s.rom := rfl
@[simp] theorem respondRead_events (op : ReadOp) (frame : Frame) (s : State) : (respondRead op frame s).events = s.events := rfl
@[simp] theorem respondRead_busy (op : ReadOp) (frame : Frame) (s : State) : (respondRead op frame s).busy = false := rfl

@[simp] theorem applyReset_cfg (s : State) : (applyReset s).cfg = Cfg.reset := rfl
@[simp] theorem applyReset_inProgress (s : State) : (applyReset s).inProgress = none := rfl
@[simp] theorem applyReset_frame (s : State) : (applyReset s).frame = none := rfl
@[simp] theorem applyReset_poll (s : State) : (applyReset s).poll = none := rfl
@[simp] theorem applyReset_cs (s : State) : (applyReset s).cs = false := rfl
@[simp] theorem applyReset_sck (s : State) : (applyReset s).sck = false := rfl
@[simp] theorem applyReset_response (s : State) : (applyReset s).response = none := rfl
@[simp] theorem applyReset_rom (s : State) : (applyReset s).rom = s.rom := rfl
@[simp] theorem applyReset_events (s : State) : (applyReset s).events = s.events := rfl
@[simp] theorem applyReset_busy (s : State) : (applyReset s).busy = false := rfl

@[simp] theorem presentWord_cfg (s : State) (nbits w : Nat) : (presentWord s nbits w).cfg = s.cfg := rfl
@[simp] theorem presentWord_inProgress (s : State) (nbits w : Nat) : (presentWord s nbits w).inProgress = s.inProgress := rfl
@[simp] theorem presentWord_frame (s : State) (nbits w : Nat) : (presentWord s nbits w).frame = s.frame := rfl
@[simp] theorem presentWord_poll (s : State) (nbits w : Nat) : (presentWord s nbits w).poll = s.poll := rfl
@[simp] theorem presentWord_cs (s : State) (nbits w : Nat) : (presentWord s nbits w).cs = s.cs := rfl
@[simp] theorem presentWord_sck (s : State) (nbits w : Nat) : (presentWord s nbits w).sck = s.sck := rfl
@[simp] theorem presentWord_response (s : State) (nbits w : Nat) : (presentWord s nbits w).response = s.response := rfl
@[simp] theorem presentWord_rom (s : State) (nbits w : Nat) : (presentWord s nbits w).rom = s.rom := rfl
@[simp] theorem presentWord_events (s : State) (nbits w : Nat) : (presentWord s nbits w).events = .request (tableWord nbits w) :: s.events := rfl
@[simp] theorem presentWord_busy (s : State) (nbits w : Nat) : (presentWord s nbits w).busy = s.busy := rfl

theorem busy_def (s : State) : s.busy = s.inProgress.isSome := rfl

theorem busy_false_iff (s : State) : s.busy = false ↔ s.inProgress = none := by
  cases h : s.inProgress <;> simp [State.busy, h]

theorem busy_true_iff (s : State) : s.busy = true ↔ ∃ op, s.inProgress = some op := by
  cases h : s.inProgress <;> simp [State.busy, h]

@[simp] theorem reset_busy : State.reset.busy = false := rfl

@[simp] theorem withFetchWord_eq (s : State) (nbits w : Nat) : s.withFetchWord nbits w = presentWord s nbits w := rfl

end Sys2Proof.Machine
end

