-- ==== Sys2Proof/Laws/Ops.lean ====
section
/-! SUPPORT. One lemma per shared operation that says all it can do; provers cite these instead of unfolding. -/

namespace Sys2Proof.Machine

open Sys2Proof.Safety

/-! ### The Frame Acquirer's turn -/

theorem acquirerTurn_idle (level : Bool) (s : State) (h : s.poll = none) : acquirerTurn level s = s := by
  simp [acquirerTurn, h]

/-- All a turn can do: nothing without a poll, or one of the four lines of `FrameRead()`. -/
theorem acquirerTurn_cases (level : Bool) (s : State) :
    (s.poll = none ∧ acquirerTurn level s = s) ∨
    (∃ p, s.poll = some p ∧
      ((s.cs = false ∧ acquirerTurn level s = { s with cs := true }) ∨
       (s.cs = true ∧ s.sck = true ∧ acquirerTurn level s = { s with sck := false }) ∨
       (s.cs = true ∧ s.sck = false ∧ p.sampled < 32 ∧ acquirerTurn level s =
         { s with
           sck := true
           poll := some { word := p.word <<< 1 ||| (BitVec.ofBool level).setWidth 32, sampled := p.sampled + 1 } }) ∨
       (s.cs = true ∧ s.sck = false ∧ 32 ≤ p.sampled ∧ acquirerTurn level s =
         { s with cs := false, poll := none, frame := some p.word }))) := by
  cases h : s.poll with
  | none => simp [acquirerTurn, h]
  | some p =>
    refine .inr ⟨p, rfl, ?_⟩
    cases hc : s.cs <;> cases hk : s.sck <;> by_cases hp : p.sampled < 32 <;>
      simp [acquirerTurn, h, hc, hk, hp] <;> omega

@[simp] theorem acquirerTurn_cfg (level : Bool) (s : State) : (acquirerTurn level s).cfg = s.cfg := by
  rcases acquirerTurn_cases level s with ⟨_, h⟩ | ⟨p, _, ⟨_, h⟩ | ⟨_, _, h⟩ | ⟨_, _, _, h⟩ | ⟨_, _, _, h⟩⟩ <;> rw [h]

@[simp] theorem acquirerTurn_inProgress (level : Bool) (s : State) :
    (acquirerTurn level s).inProgress = s.inProgress := by
  rcases acquirerTurn_cases level s with ⟨_, h⟩ | ⟨p, _, ⟨_, h⟩ | ⟨_, _, h⟩ | ⟨_, _, _, h⟩ | ⟨_, _, _, h⟩⟩ <;> rw [h]

@[simp] theorem acquirerTurn_busy (level : Bool) (s : State) : (acquirerTurn level s).busy = s.busy := by
  simp [State.busy]

@[simp] theorem acquirerTurn_response (level : Bool) (s : State) : (acquirerTurn level s).response = s.response := by
  rcases acquirerTurn_cases level s with ⟨_, h⟩ | ⟨p, _, ⟨_, h⟩ | ⟨_, _, h⟩ | ⟨_, _, _, h⟩ | ⟨_, _, _, h⟩⟩ <;> rw [h]

@[simp] theorem acquirerTurn_rom (level : Bool) (s : State) : (acquirerTurn level s).rom = s.rom := by
  rcases acquirerTurn_cases level s with ⟨_, h⟩ | ⟨p, _, ⟨_, h⟩ | ⟨_, _, h⟩ | ⟨_, _, _, h⟩ | ⟨_, _, _, h⟩⟩ <;> rw [h]

@[simp] theorem acquirerTurn_events (level : Bool) (s : State) : (acquirerTurn level s).events = s.events := by
  rcases acquirerTurn_cases level s with ⟨_, h⟩ | ⟨p, _, ⟨_, h⟩ | ⟨_, _, h⟩ | ⟨_, _, _, h⟩ | ⟨_, _, _, h⟩⟩ <;> rw [h]

/-- A turn reads neither the events nor the response outputs. -/
theorem acquirerTurn_with (level : Bool) (s : State) (events : List Event) (response : Option Response) :
    acquirerTurn level { s with events := events, response := response } =
      { acquirerTurn level s with events := events, response := response } := by
  cases h : s.poll with
  | none => simp [acquirerTurn, h]
  | some p =>
    cases hc : s.cs <;> cases hk : s.sck <;> by_cases hp : p.sampled < 32 <;> simp [acquirerTurn, h, hc, hk, hp]

/-! ### The decoder's turn -/

/-- All the decoder's turn can do. -/
theorem decoderTurn_cases (s : State) :
    ((s.inProgress = none ∨ s.poll ≠ none) ∧ decoderTurn s = .next s) ∨
    (∃ op, s.inProgress = some op ∧ s.poll = none ∧
      ((s.frame = none ∧ decoderTurn s = .fault .frameHasNoValue) ∨
       (∃ frame, s.frame = some frame ∧ decoderTurn s = .next (respondRead op frame s)))) := by
  cases ho : s.inProgress <;> cases hp : s.poll <;> cases hf : s.frame <;> simp [decoderTurn, readFrame, ho, hp, hf]

theorem decoderTurn_pending (s : State) (p : Poll) (h : s.poll = some p) : decoderTurn s = .next s := by
  simp [decoderTurn, h]

theorem decoderTurn_responds (s : State) (op : ReadOp) (frame : Frame) (ho : s.inProgress = some op)
    (hp : s.poll = none) (hf : s.frame = some frame) : decoderTurn s = .next (respondRead op frame s) := by
  simp [decoderTurn, readFrame, ho, hp, hf]

/-! ### Acceptance and the run of an operation -/

theorem acceptRead_ready (op : ReadOp) (s : State) (h : Ready s) : acceptRead op s = .next (accepted s op) := by
  simp [acceptRead, h.2.2.1, h.2.2.2, accepted]

theorem refusalOfRead_ready (s : State) (h : Ready s) : refusalOfRead s = none := by
  simp [refusalOfRead, h.1, h.2.1]

theorem performRead_ready (op : ReadOp) (s : State) (h : Ready s) :
    performRead op s = runOperation s.events (accepted s op) := by
  simp [performRead, refusalOfRead_ready s h, acceptRead_ready op s h, accepted]

theorem performRead_busy (op : ReadOp) (s : State) (h : s.busy = true) :
    performRead op s = .next (refuse .refusedBusy s) := by
  simp [performRead, refusalOfRead, h]

theorem performRead_uninitialised (op : ReadOp) (s : State) (hb : s.busy = false) (hv : s.cfg.valid = false) :
    performRead op s = .next (refuse .refusedInit s) := by
  simp [performRead, refusalOfRead, hb, hv]

/-- All a read request can do. -/
theorem performRead_cases (op : ReadOp) (s : State) :
    (s.busy = true ∧ performRead op s = .next (refuse .refusedBusy s)) ∨
    (s.busy = false ∧ s.cfg.valid = false ∧ performRead op s = .next (refuse .refusedInit s)) ∨
    (s.busy = false ∧ s.cfg.valid = true ∧ (s.cs = true ∨ s.sck = true) ∧
      performRead op s = .fault .acquirerNotIdle) ∨
    (Ready s ∧ performRead op s = runOperation s.events (accepted s op)) := by
  cases hb : s.busy with
  | true => exact .inl ⟨rfl, performRead_busy op s hb⟩
  | false =>
    cases hv : s.cfg.valid with
    | false => exact .inr (.inl ⟨rfl, rfl, performRead_uninitialised op s hb hv⟩)
    | true =>
      refine .inr (.inr ?_)
      by_cases hl : s.cs = false ∧ s.sck = false
      · exact .inr ⟨⟨hv, hb, hl⟩, performRead_ready op s ⟨hv, hb, hl⟩⟩
      · refine .inl ⟨rfl, rfl, ?_, ?_⟩
        · cases hc : s.cs <;> cases hk : s.sck <;> simp_all
        · cases hc : s.cs <;> cases hk : s.sck <;> simp_all [performRead, refusalOfRead, acceptRead]

theorem runOperation_turn (level : Bool) (rest : List Event) (s : State) (p : Poll) (h : s.poll = some p) :
    runOperation (.acquirerTurn level :: rest) s = runOperation rest (acquirerTurn level { s with events := rest }) := by
  simp [runOperation, h]

theorem runOperation_decoder (rest : List Event) (s : State) (h : s.poll = none) :
    runOperation (.decoderTurn :: rest) s = decoderTurn { s with events := rest } := by
  simp [runOperation, h]

/-- An operation that meets an event that is not its own, or none, stays as it is. -/
theorem runOperation_waits (events : List Event) (s : State) (p : Poll) (h : s.poll = some p)
    (hn : ∀ level rest, events ≠ .acquirerTurn level :: rest) : runOperation events s = .next s := by
  cases events with
  | nil => rfl
  | cons e rest =>
    cases e with
    | acquirerTurn level => exact absurd rfl (hn level rest)
    | _ => simp [runOperation, h]

/-! ### The step -/

/-- The step as a case analysis over the next event. -/
theorem step_cases (s : State) :
    (s.events = [] ∧ step s = .next s) ∨
    (∃ w rest, s.events = .request w :: rest ∧ step s = present w { s with events := rest, response := none }) ∨
    (∃ level rest, s.events = .acquirerTurn level :: rest ∧
      step s = .next (acquirerTurn level { s with events := rest, response := none })) ∨
    (∃ rest, s.events = .decoderTurn :: rest ∧ step s = decoderTurn { s with events := rest, response := none }) ∨
    (∃ rest, s.events = .reset :: rest ∧ step s = .next (applyReset { s with events := rest })) := by
  cases h : s.events with
  | nil => simp [step, h]
  | cons e rest => cases e <;> simp [step, h]

/-- All a presented word can do: refuse, or run a read, or capture the configuration. -/
theorem present_cases (w : HostWord) (s : State) :
    (∃ status, present w s = .next (refuse status s)) ∨
    (s.busy = false ∧ s.cfg.valid = true ∧ ∃ op, present w s = performRead op s) ∨
    (s.busy = false ∧ s.cfg.valid = false ∧ ∃ strategy pins, present w s = .next
      { s with
        cfg := { valid := true, strategy := strategy, pins := pins }, cs := false, sck := false,
        response := some { status := .ok, result := none } }) := by
  have read (op : ReadOp) : (∃ status, performRead op s = .next (refuse status s)) ∨
      (s.busy = false ∧ s.cfg.valid = true) := by
    rcases performRead_cases op s with ⟨_, h⟩ | ⟨_, _, h⟩ | ⟨hb, hv, _⟩ | ⟨h, _⟩
    · exact .inl ⟨_, h⟩
    · exact .inl ⟨_, h⟩
    · exact .inr ⟨hb, hv⟩
    · exact .inr ⟨h.2.1, h.1⟩
  have reads (op : ReadOp) (i : Instr) (hi : exec i s = performRead op s) (hd : decode w = .ok i) :
      (∃ status, present w s = .next (refuse status s)) ∨
      (s.busy = false ∧ s.cfg.valid = true ∧ ∃ op, present w s = performRead op s) := by
    have hp : present w s = performRead op s := by simp [present, hd, hi]
    rcases read op with ⟨status, h⟩ | ⟨hb, hv⟩
    · exact .inl ⟨status, by rw [hp, h]⟩
    · exact .inr ⟨hb, hv, op, hp⟩
  cases hd : decode w with
  | error e => exact .inl ⟨_, by simp [present, hd, refuseReserved]; rfl⟩
  | ok i =>
    cases i with
    | rdint => exact (reads .rdint _ rfl hd).imp_right .inl
    | rdcel => exact (reads .rdcel _ rfl hd).imp_right .inl
    | rdraw => exact (reads .rdraw _ rfl hd).imp_right .inl
    | rdfah => exact (reads .rdfah _ rfl hd).imp_right .inl
    | rdflt => exact (reads .rdflt _ rfl hd).imp_right .inl
    | init strategy pins =>
      by_cases hr : initRefused s = true
      · exact .inl ⟨.refusedInit, by simp [present, hd, exec, execInit, hr]⟩
      · refine .inr (.inr ?_)
        have hr' : initRefused s = false := by simpa using hr
        have : s.cfg.valid = false ∧ s.busy = false := by simpa [initRefused] using hr'
        exact ⟨this.2, this.1, strategy, pins, by simp [present, hd, exec, execInit, hr']⟩

end Sys2Proof.Machine
end

