-- ==== Sys2Proof/Laws/Acquirer.lean ====
section
/-! SUPPORT. The Frame Acquirer turn by turn, and a whole poll (40_frame_acquire.md rules R60 and R61). -/

namespace Sys2Proof.Machine

open Sys2Proof.Safety

/-- The state after the acquirer's turns at these levels. -/
def afterTurns (levels : List Bool) (s : State) : State := levels.foldl (fun s level => acquirerTurn level s) s

@[simp] theorem afterTurns_nil (s : State) : afterTurns [] s = s := rfl

@[simp] theorem afterTurns_cons (level : Bool) (levels : List Bool) (s : State) :
    afterTurns (level :: levels) s = afterTurns levels (acquirerTurn level s) := rfl

theorem afterTurns_append (xs ys : List Bool) (s : State) :
    afterTurns (xs ++ ys) s = afterTurns ys (afterTurns xs s) := by simp [afterTurns]

theorem afterTurns_with (levels : List Bool) (s : State) (events : List Event) (response : Option Response) :
    afterTurns levels { s with events := events, response := response } =
      { afterTurns levels s with events := events, response := response } := by
  induction levels generalizing s with
  | nil => rfl
  | cons level levels ih => rw [afterTurns_cons, acquirerTurn_with, ih, afterTurns_cons]

theorem afterTurns_response (levels : List Bool) (s : State) : (afterTurns levels s).response = s.response := by
  induction levels generalizing s with
  | nil => rfl
  | cons level levels ih => rw [afterTurns_cons, ih, acquirerTurn_response]

/-- Shifting in the next bit of a frame (40_frame_acquire.md rule R61). -/
theorem shiftIn_next (frame : Frame) (m : Nat) (hm : m < 32) :
    (frame >>> (32 - m)) <<< 1 ||| (BitVec.ofBool (frame.getLsbD (31 - m))).setWidth 32 = frame >>> (31 - m) := by
  apply BitVec.eq_of_getLsbD_eq
  intro i hi
  rcases Nat.eq_zero_or_pos i with rfl | hpos
  · simp
  · have h1 : ¬ i < 1 := by omega
    have h2 : 32 - m + (i - 1) = 31 - m + i := by omega
    simp [h1, h2, hi, BitVec.getLsbD_ofBool]
    intro h; omega

/-- A pending poll that has not begun. -/
def PollStart (s : State) : Prop := s.poll = some { word := 0, sampled := 0 } ∧ s.cs = false ∧ s.sck = false

/-- After `CS` is asserted and `m` whole periods: the top `m` bits of the frame are in the word. -/
theorem afterTurns_periods (levels : List Bool) (frame : Frame) (s : State) (h : Delivers levels frame)
    (hs : PollStart s) (m : Nat) (hm : m ≤ 32) :
    afterTurns (levels.take (1 + 2 * m)) s =
        { s with cs := true, poll := some { word := frame >>> (32 - m), sampled := m } } := by
  obtain ⟨hl, hb⟩ := h
  obtain ⟨hp, hc, hk⟩ := hs
  induction m with
  | zero =>
    have : levels.take (1 + 2 * 0) = [levels[0]] := by
      rw [show 1 + 2 * 0 = 0 + 1 from rfl, List.take_add_one]; simp [hl]
    rw [this]
    have hz : frame >>> 32 = 0 := by
      apply BitVec.eq_of_getLsbD_eq; intro i hi; simp [BitVec.getLsbD_ushiftRight]
    simp [acquirerTurn, hp, hc, hz]
  | succ m ih =>
    have ih := ih (by omega)
    have hbit := hb (m + 1) (by omega) hm
    have h1 : 2 * (m + 1) - 1 = 1 + 2 * m := by omega
    rw [h1] at hbit
    have h2 : 2 + 2 * m < levels.length := by omega
    have htake : levels.take (1 + 2 * (m + 1)) =
        levels.take (1 + 2 * m) ++ [frame.getLsbD (32 - (m + 1)), levels[2 + 2 * m]] := by
      rw [show 1 + 2 * (m + 1) = (1 + 2 * m) + 1 + 1 by omega, List.take_add_one, List.take_add_one, hbit]
      rw [show 1 + 2 * m + 1 = 2 + 2 * m by omega, List.getElem?_eq_getElem h2]
      simp
    rw [htake, afterTurns_append, ih]
    have hm' : m < 32 := by omega
    have := shiftIn_next frame m hm'
    simp [acquirerTurn, hm', hk]
    simpa using this

/-- Inside a period, after the rise of `SCK`, the poll is still pending. -/
theorem afterTurns_rise_pending (levels : List Bool) (frame : Frame) (s : State) (h : Delivers levels frame)
    (hs : PollStart s) (j : Nat) (hj : j ≤ 65) : (afterTurns (levels.take j) s).poll ≠ none := by
  rcases Nat.even_or_odd' j with ⟨m, rfl | rfl⟩
  · rcases Nat.eq_zero_or_pos m with rfl | hpos
    · simp [hs.1]
    · obtain ⟨n, rfl⟩ : ∃ n, m = n + 1 := ⟨m - 1, by omega⟩
      have hl := h.1
      have htake : levels.take (2 * (n + 1)) = levels.take (1 + 2 * n) ++ [levels[1 + 2 * n]] := by
        rw [show 2 * (n + 1) = (1 + 2 * n) + 1 by omega, List.take_add_one, List.getElem?_eq_getElem (by omega)]
        simp
      rw [htake, afterTurns_append, afterTurns_periods levels frame s h hs n (by omega)]
      have : n < 32 := by omega
      simp [acquirerTurn, this, hs.2.2]
  · rw [Nat.add_comm, afterTurns_periods levels frame s h hs m (by omega)]
    simp

/-- A whole poll: the frame is latched, the lines are idle, nothing else changes
(40_frame_acquire.md rules R60, R61 and R69). -/
theorem afterTurns_delivers (levels : List Bool) (frame : Frame) (s : State) (h : Delivers levels frame)
    (hs : PollStart s) : afterTurns levels s = { s with poll := none, frame := some frame } := by
  have hl := h.1
  have hsplit : levels = levels.take (1 + 2 * 32) ++ [levels[65]] := by
    conv_lhs => rw [← List.take_of_length_le (show levels.length ≤ 65 + 1 by omega)]
    rw [List.take_add_one, List.getElem?_eq_getElem (by omega)]; simp
  rw [hsplit, afterTurns_append, afterTurns_periods levels frame s h hs 32 (Nat.le_refl _)]
  simp [acquirerTurn, hs.2.1, hs.2.2]

/-- An operation runs through its acquirer's turns for as long as its poll is pending. -/
theorem runOperation_turns (levels : List Bool) (rest : List Event) (s : State)
    (hp : ∀ j < levels.length, (afterTurns (levels.take j) s).poll ≠ none) (he : s.events = turns levels ++ rest) :
    runOperation (turns levels ++ rest) s = runOperation rest { afterTurns levels s with events := rest } := by
  induction levels generalizing s with
  | nil => simp [turns] at he ⊢; rw [← he]
  | cons level levels ih =>
    have h0 : s.poll ≠ none := by simpa using hp 0 (by simp)
    obtain ⟨p, hpoll⟩ := Option.ne_none_iff_exists'.mp h0
    rw [turns, List.map_cons, List.cons_append, runOperation_turn _ _ _ p hpoll]
    have hw : acquirerTurn level { s with events := turns levels ++ rest } =
        { acquirerTurn level s with events := turns levels ++ rest } := by
      have := acquirerTurn_with level s (turns levels ++ rest) s.response
      simpa using this
    have hstep : ∀ (t : State) (xs : List Bool) (e : List Event),
        afterTurns xs { t with events := e } = { afterTurns xs t with events := e } := fun t xs e => by
      simpa [afterTurns_response] using afterTurns_with xs t e t.response
    change runOperation (turns levels ++ rest) (acquirerTurn level { s with events := turns levels ++ rest }) = _
    rw [hw, ih _ _ rfl, hstep]
    · rfl
    · intro j hj
      rw [hstep]
      have := hp (j + 1) (by simp; omega)
      simpa using this

/-- A read whose poll is answered: the whole of 43_operations.md rule R111. -/
theorem performRead_answers (op : ReadOp) (s : State) (levels : List Bool) (frame : Frame) (rest : List Event)
    (hr : Ready s) (hd : Delivers levels frame) (he : s.events = turns levels ++ .decoderTurn :: rest) :
    performRead op s = .next (answered s (resultOf op s.rom frame) rest) := by
  have hs : PollStart (accepted s op) := ⟨rfl, hr.2.2.1, hr.2.2.2⟩
  have hp : ∀ j < levels.length, (afterTurns (levels.take j) (accepted s op)).poll ≠ none := fun j hj =>
    afterTurns_rise_pending levels frame _ hd hs j (by have := hd.1; omega)
  rw [performRead_ready op s hr, he, runOperation_turns levels _ _ hp he, afterTurns_delivers levels frame _ hd hs,
    runOperation_decoder _ _ rfl, decoderTurn_responds _ op frame rfl rfl rfl]
  simp [respondRead, answered, accepted, hr.2.2.1, hr.2.2.2]

end Sys2Proof.Machine
end

