-- ==== Sys2Proof/Laws/Float64.lean ====
section
/-! SUPPORT. The bits of a binary64 value and the rounding of a fraction, in natural numbers. -/

namespace Sys2Proof.Machine

/-- The magnitude, in units of 2^-1074, of the value whose bits without sign are `b`. -/
def magOfBits (b : Nat) : Nat := if b / 2 ^ 52 = 0 then b % 2 ^ 52 else (2 ^ 52 + b % 2 ^ 52) * 2 ^ (b / 2 ^ 52 - 1)

theorem signBit_eq (a : F64) : signBit a = decide (2 ^ 63 ≤ a.toNat) := by
  have h := a.isLt
  rw [signBit, BitVec.getLsbD, Nat.testBit_eq_decide_div_mod_eq]
  rw [decide_eq_decide]; omega

theorem expField_eq (a : F64) : expField a = a.toNat % 2 ^ 63 / 2 ^ 52 := by
  have h := a.isLt
  rw [expField]; omega

theorem fracField_eq (a : F64) : fracField a = a.toNat % 2 ^ 63 % 2 ^ 52 := by
  rw [fracField]; omega

theorem expField_lt (a : F64) : expField a < 2048 := by rw [expField]; omega

theorem fracField_lt (a : F64) : fracField a < 2 ^ 52 := by rw [fracField]; omega

theorem magUnits_eq (a : F64) : magUnits a = magOfBits (a.toNat % 2 ^ 63) := by
  rw [magUnits, magOfBits, expField_eq, fracField_eq]

theorem toNat_pack (neg : Bool) (b : Nat) (h : b < 2 ^ 63) :
    (pack neg b).toNat = (if neg then 2 ^ 63 else 0) + b := by
  rw [pack, BitVec.toNat_ofNat, Nat.mod_eq_of_lt]
  cases neg <;> simp <;> omega

theorem signBit_pack (neg : Bool) (b : Nat) (h : b < 2 ^ 63) : signBit (pack neg b) = neg := by
  rw [signBit_eq, toNat_pack neg b h]
  cases neg <;> simp <;> omega

theorem low_pack (neg : Bool) (b : Nat) (h : b < 2 ^ 63) : (pack neg b).toNat % 2 ^ 63 = b := by
  rw [toNat_pack neg b h]
  cases neg <;> simp only [if_true, Bool.false_eq_true, if_false] <;> omega

theorem expField_pack (neg : Bool) (b : Nat) (h : b < 2 ^ 63) : expField (pack neg b) = b / 2 ^ 52 := by
  rw [expField_eq, low_pack neg b h]

theorem fracField_pack (neg : Bool) (b : Nat) (h : b < 2 ^ 63) : fracField (pack neg b) = b % 2 ^ 52 := by
  rw [fracField_eq, low_pack neg b h]

theorem magUnits_pack (neg : Bool) (b : Nat) (h : b < 2 ^ 63) : magUnits (pack neg b) = magOfBits b := by
  rw [magUnits_eq, low_pack neg b h]

/-- A value is the packing of its sign and its other bits. -/
theorem pack_self (a : F64) : pack (signBit a) (a.toNat % 2 ^ 63) = a := by
  have h := a.isLt
  apply BitVec.eq_of_toNat_eq
  rw [toNat_pack _ _ (Nat.mod_lt _ (by omega)), signBit_eq]
  by_cases hs : 2 ^ 63 ≤ a.toNat <;> simp only [hs, decide_true, decide_false, if_true, Bool.false_eq_true, if_false] <;> omega

theorem isFinite_iff (a : F64) : isFinite a = true ↔ a.toNat % 2 ^ 63 < 2047 * 2 ^ 52 := by
  have h := expField_lt a
  rw [isFinite, bne_iff_ne, expField_eq]
  rw [expField_eq] at h
  omega

/-- The bits of a significand `f` at unit `2 ^ k` (normal, subnormal or the next power of two) denote `f * 2 ^ k`. -/
theorem magOfBits_scaled (k f : Nat) (hf : f ≤ 2 ^ 53) (hn : k = 0 ∨ 2 ^ 52 ≤ f) :
    magOfBits (k * 2 ^ 52 + f) = f * 2 ^ k := by
  rw [magOfBits]
  by_cases h53 : f = 2 ^ 53
  · subst h53
    have h1 : (k * 2 ^ 52 + 2 ^ 53) / 2 ^ 52 = k + 2 := by omega
    have h2 : (k * 2 ^ 52 + 2 ^ 53) % 2 ^ 52 = 0 := by omega
    rw [h1, h2]
    rw [if_neg (by omega), show k + 2 - 1 = k + 1 by omega, Nat.pow_succ]
    rw [show (2 : Nat) ^ 53 = 2 ^ 52 * 2 by norm_num, Nat.add_zero]
    ring
  · by_cases hlow : f < 2 ^ 52
    · have hk : k = 0 := by omega
      subst hk
      have h1 : (0 * 2 ^ 52 + f) / 2 ^ 52 = 0 := by omega
      have h2 : (0 * 2 ^ 52 + f) % 2 ^ 52 = f := by omega
      rw [h1, h2]; simp
    · have h1 : (k * 2 ^ 52 + f) / 2 ^ 52 = k + 1 := by omega
      have h2 : (k * 2 ^ 52 + f) % 2 ^ 52 = f - 2 ^ 52 := by omega
      rw [h1, h2]
      simp only [Nat.add_eq_zero_iff, one_ne_zero, and_false, if_false, Nat.add_sub_cancel]
      rw [Nat.add_sub_cancel' (by omega)]

/-- The unit exponent `roundMag` chooses. -/
def unitExp (n d : Nat) : Nat := if n / d < 2 ^ 53 then 0 else (n / d).log2 - 52

/-- The significand `roundMag` chooses. -/
def roundedSig (n d : Nat) : Nat :=
  if d * 2 ^ unitExp n d < 2 * (n % (d * 2 ^ unitExp n d)) ∨
      (2 * (n % (d * 2 ^ unitExp n d)) = d * 2 ^ unitExp n d ∧ n / (d * 2 ^ unitExp n d) % 2 = 1)
  then n / (d * 2 ^ unitExp n d) + 1 else n / (d * 2 ^ unitExp n d)

theorem roundMag_eq (n d : Nat) :
    roundMag n d = min (unitExp n d * 2 ^ 52 + roundedSig n d) (2047 * 2 ^ 52) := rfl

/-- Before rounding, the significand lies in its binade. -/
theorem sig_range (n d : Nat) :
    n / (d * 2 ^ unitExp n d) < 2 ^ 53 ∧ (unitExp n d = 0 ∨ 2 ^ 52 ≤ n / (d * 2 ^ unitExp n d)) := by
  rw [← Nat.div_div_eq_div_mul]
  rw [unitExp]
  by_cases h : n / d < 2 ^ 53
  · rw [if_pos h]
    exact ⟨by simpa using h, .inl rfl⟩
  · rw [if_neg h]
    have hq : n / d ≠ 0 := by omega
    have hlo := Nat.log2_self_le hq
    have hhi := Nat.lt_log2_self (n := n / d)
    have h53 : 53 ≤ (n / d).log2 := (Nat.le_log2 hq).2 (by omega)
    constructor
    · rw [Nat.div_lt_iff_lt_mul (Nat.two_pow_pos _), ← Nat.pow_add]
      rwa [show 53 + ((n / d).log2 - 52) = (n / d).log2 + 1 by omega]
    · right
      rw [Nat.le_div_iff_mul_le (Nat.two_pow_pos _), ← Nat.pow_add]
      rwa [show 52 + ((n / d).log2 - 52) = (n / d).log2 by omega]

theorem roundedSig_range (n d : Nat) :
    roundedSig n d ≤ 2 ^ 53 ∧ (unitExp n d = 0 ∨ 2 ^ 52 ≤ roundedSig n d) := by
  have h := sig_range n d
  rw [roundedSig]
  split <;> omega

theorem roundMag_lt (n d : Nat) : roundMag n d < 2 ^ 63 := by rw [roundMag_eq]; omega

theorem magOfBits_roundMag (n d : Nat) (hfin : roundMag n d < 2047 * 2 ^ 52) :
    magOfBits (roundMag n d) = roundedSig n d * 2 ^ unitExp n d := by
  have h := roundedSig_range n d
  rw [roundMag_eq] at hfin ⊢
  rw [Nat.min_eq_left (by omega)]
  exact magOfBits_scaled _ _ h.1 h.2

/-- `roundedSig` is a nearest whole number of units, and the even one of two. -/
theorem roundedSig_nearest (n d : Nat) (hd : 0 < d) (j : Nat) :
    |((roundedSig n d : Int) * (d * 2 ^ unitExp n d : Nat) - n)| ≤ |((j : Int) * (d * 2 ^ unitExp n d : Nat) - n)| ∧
    (j ≠ roundedSig n d →
      |((j : Int) * (d * 2 ^ unitExp n d : Nat) - n)| = |((roundedSig n d : Int) * (d * 2 ^ unitExp n d : Nat) - n)| →
      roundedSig n d % 2 = 0) := by
  rw [roundedSig]
  generalize hu : d * 2 ^ unitExp n d = u
  have hupos : 0 < u := by rw [← hu]; exact Nat.mul_pos hd (Nat.two_pow_pos _)
  have hdm := Nat.div_add_mod n u
  have hr := Nat.mod_lt n hupos
  generalize hlo : n / u = lo at *
  generalize hrr : n % u = r at *
  have hn : (n : Int) = u * lo + r := by rw [← hdm]; push_cast; ring
  have key : ∀ i : Int, i * u - n = (i - lo) * u - r := fun i => by rw [hn]; ring
  simp only [key]
  have hj : (j : Int) - lo ≤ -1 ∨ (j : Int) - lo = 0 ∨ (j : Int) - lo = 1 ∨ 2 ≤ (j : Int) - lo := by omega
  have hu' : (0 : Int) < u := by exact_mod_cast hupos
  split
  · rename_i hup
    push_cast
    rw [show ((lo : Int) + 1 - lo) * u - r = u - r by ring, abs_of_nonneg (show (0:Int) ≤ u - r by omega)]
    rcases hj with h | h | h | h
    · have h2 : ((j : Int) - lo) * u ≤ -u := by nlinarith
      rw [abs_of_nonpos (by omega)]
      constructor
      · omega
      · intro _ he; omega
    · rw [h, zero_mul, zero_sub, abs_neg, abs_of_nonneg (by omega)]
      constructor
      · omega
      · intro _ he; omega
    · rw [h, one_mul, abs_of_nonneg (by omega)]
      exact ⟨le_refl _, fun hne => by omega⟩
    · have h2 : (u : Int) * 2 ≤ ((j : Int) - lo) * u := by nlinarith
      rw [abs_of_nonneg (by omega)]
      constructor
      · omega
      · intro _ he; omega
  · rename_i hup
    have hup' : 2 * r ≤ u ∧ (2 * r = u → lo % 2 = 0) := by omega
    rw [sub_self, zero_mul, zero_sub, abs_neg, abs_of_nonneg (show (0:Int) ≤ r by omega)]
    rcases hj with h | h | h | h
    · have h2 : ((j : Int) - lo) * u ≤ -u := by nlinarith
      rw [abs_of_nonpos (by omega)]
      constructor
      · omega
      · intro _ he; omega
    · rw [h, zero_mul, zero_sub, abs_neg, abs_of_nonneg (by omega)]
      exact ⟨le_refl _, fun hne => by omega⟩
    · rw [h, one_mul, abs_of_nonneg (by omega)]
      constructor
      · omega
      · intro _ he; omega
    · have h2 : (u : Int) * 2 ≤ ((j : Int) - lo) * u := by nlinarith
      rw [abs_of_nonneg (by omega)]
      constructor
      · omega
      · intro _ he; omega

/-- A magnitude that is no whole number of units `2 ^ k` lies below the smallest normal number of that unit. -/
theorem magOfBits_multiple (b k : Nat) (hk : k = 0 ∨ 2 ^ (52 + k) ≤ magOfBits b) : ∃ j, magOfBits b = j * 2 ^ k := by
  rcases hk with rfl | h
  · exact ⟨magOfBits b, by simp⟩
  · rw [magOfBits] at h ⊢
    split at h
    · rename_i h0
      rw [if_pos h0]
      have : b % 2 ^ 52 < 2 ^ 52 := Nat.mod_lt _ (Nat.two_pow_pos _)
      have : 2 ^ 52 ≤ 2 ^ (52 + k) := Nat.pow_le_pow_right (by omega) (by omega)
      omega
    · rename_i h0
      rw [if_neg h0]
      have hlt : 2 ^ 52 + b % 2 ^ 52 < 2 ^ 53 := by omega
      have hge : k ≤ b / 2 ^ 52 - 1 := by
        by_contra hcon
        have h1 : 2 ^ (b / 2 ^ 52 - 1) * 2 ≤ 2 ^ k := by
          rw [← Nat.pow_succ]; exact Nat.pow_le_pow_right (by omega) (by omega)
        have h2 : (2 ^ 52 + b % 2 ^ 52) * 2 ^ (b / 2 ^ 52 - 1) < 2 ^ 53 * 2 ^ (b / 2 ^ 52 - 1) :=
          Nat.mul_lt_mul_of_pos_right hlt (Nat.two_pow_pos _)
        rw [Nat.pow_add] at h
        have h3 : 2 ^ 53 * 2 ^ (b / 2 ^ 52 - 1) = 2 ^ 52 * (2 ^ (b / 2 ^ 52 - 1) * 2) := by ring
        have h4 : 2 ^ 52 * (2 ^ (b / 2 ^ 52 - 1) * 2) ≤ 2 ^ 52 * 2 ^ k := Nat.mul_le_mul_left _ h1
        omega
      refine ⟨(2 ^ 52 + b % 2 ^ 52) * 2 ^ (b / 2 ^ 52 - 1 - k), ?_⟩
      rw [Nat.mul_assoc, ← Nat.pow_add]
      congr 2
      omega

end Sys2Proof.Machine
end

