-- ==== Sys2Proof/Laws/Rounding.lean ====
section
/-! SUPPORT. The rounding in the field of rationals: nearest, ties to even, overflow. -/

namespace Sys2Proof.Machine

open Sys2Proof.Safety

theorem unitsPerOne_pos : 0 < unitsPerOne := by rw [unitsPerOne]; positivity

theorem toRat_eq (a : F64) :
    toRat a = (if signBit a then -(magUnits a : Rat) else (magUnits a : Rat)) / unitsPerOne := by
  rw [toRat, intUnits]
  split <;> push_cast <;> rfl

theorem toRat_pack (neg : Bool) (b : Nat) (h : b < 2 ^ 63) :
    toRat (pack neg b) = (if neg then -(magOfBits b : Rat) else (magOfBits b : Rat)) / unitsPerOne := by
  rw [toRat_eq, signBit_pack neg b h, magUnits_pack neg b h]

/-- The rounding in the field of rationals: a nearest magnitude, even on a tie. -/
theorem roundMag_nearest (n d : Nat) (hd : 0 < d) (hfin : roundMag n d < 2047 * 2 ^ 52) (b : Nat) :
    |(magOfBits (roundMag n d) : Rat) - n / d| ≤ |(magOfBits b : Rat) - n / d| ∧
    (magOfBits b ≠ magOfBits (roundMag n d) →
      |(magOfBits b : Rat) - n / d| = |(magOfBits (roundMag n d) : Rat) - n / d| → roundMag n d % 2 = 0) := by
  rw [magOfBits_roundMag n d hfin]
  have hparity : roundMag n d % 2 = roundedSig n d % 2 := by
    rw [roundMag_eq] at hfin ⊢; omega
  rw [hparity]
  set k := unitExp n d with hk
  set f := roundedSig n d with hf
  have hd' : (0 : Rat) < d := by exact_mod_cast hd
  -- a whole number of units, compared in integers
  have scale : ∀ j : Nat, |((j * 2 ^ k : Nat) : Rat) - n / d| * d = ((|(j : Int) * (d * 2 ^ k : Nat) - n| : Int) : Rat) := by
    intro j
    rw [Int.cast_abs, ← abs_of_pos hd', ← abs_mul, abs_of_pos hd']
    congr 1
    push_cast
    field_simp
  have units : ∀ j : Nat, |((f * 2 ^ k : Nat) : Rat) - n / d| ≤ |((j * 2 ^ k : Nat) : Rat) - n / d| ∧
      (j ≠ f → |((j * 2 ^ k : Nat) : Rat) - n / d| = |((f * 2 ^ k : Nat) : Rat) - n / d| → f % 2 = 0) := by
    intro j
    have h := roundedSig_nearest n d hd j
    rw [← hk, ← hf] at h
    constructor
    · apply le_of_mul_le_mul_right _ hd'
      rw [scale, scale]
      exact_mod_cast h.1
    · intro hne he
      apply h.2 hne
      have := congrArg (· * (d : Rat)) he
      simp only [scale] at this
      exact_mod_cast this
  by_cases hb : k = 0 ∨ 2 ^ (52 + k) ≤ magOfBits b
  · obtain ⟨j, hj⟩ := magOfBits_multiple b k hb
    rw [hj]
    refine ⟨(units j).1, fun hne => (units j).2 ?_⟩
    rintro rfl; exact hne rfl
  · push Not at hb
    have hlow := hb.2
    have hx : ((2 ^ 52 * 2 ^ k : Nat) : Rat) ≤ n / d := by
      have hs := (sig_range n d).2.resolve_left (by rw [← hk]; exact hb.1)
      rw [← hk] at hs
      rw [le_div_iff₀ hd']
      have := (Nat.le_div_iff_mul_le (Nat.mul_pos hd (Nat.two_pow_pos k))).1 hs
      have h2 : 2 ^ 52 * 2 ^ k * d ≤ n := by rw [show 2 ^ 52 * 2 ^ k * d = 2 ^ 52 * (d * 2 ^ k) by ring]; exact this
      exact_mod_cast h2
    have hM : (magOfBits b : Rat) < ((2 ^ 52 * 2 ^ k : Nat) : Rat) := by
      rw [← Nat.pow_add]; exact_mod_cast hlow
    have h52 := (units (2 ^ 52)).1
    have hstrict : |((2 ^ 52 * 2 ^ k : Nat) : Rat) - n / d| < |(magOfBits b : Rat) - n / d| := by
      generalize ((2 ^ 52 * 2 ^ k : Nat) : Rat) = X at hx hM
      generalize (n : Rat) / d = Y at hx
      rw [abs_of_nonpos (by linarith), abs_of_nonpos (by linarith)]; linarith
    refine ⟨le_of_lt (lt_of_le_of_lt h52 hstrict), fun _ he => ?_⟩
    exact absurd he (ne_of_gt (lt_of_le_of_lt h52 hstrict))

/-- Where the rounding overflows: from half a unit beyond the largest finite value on. -/
theorem roundMag_overflow (n d H : Nat) (hd : 0 < d) (hH : H = 2 ^ 2044) :
    roundMag n d < 2047 * 2 ^ 52 ↔ n < (2 ^ 54 - 1) * (d * H) := by
  have h2045 : (2 : Nat) ^ 2045 = 2 * H := by rw [hH, ← Nat.pow_succ']
  have hH0 : 0 < H := by rw [hH]; exact Nat.two_pow_pos _
  have hs := sig_range n d
  have hr := roundedSig_range n d
  rw [roundMag_eq]
  rcases Nat.lt_trichotomy (unitExp n d) 2045 with hk | hk | hk
  · constructor
    · intro _
      have h1 := (Nat.div_lt_iff_lt_mul (Nat.mul_pos hd (Nat.two_pow_pos (unitExp n d)))).1 hs.1
      have h2 : 2 ^ unitExp n d ≤ H := by rw [hH]; exact Nat.pow_le_pow_right (by omega) (by omega)
      have h3 : d * 2 ^ unitExp n d ≤ d * H := Nat.mul_le_mul_left _ h2
      omega
    · intro _; omega
  · have hdm := Nat.div_add_mod n (d * 2 ^ unitExp n d)
    have hm := Nat.mod_lt n (Nat.mul_pos hd (Nat.two_pow_pos (unitExp n d)))
    have hf : roundedSig n d = 2 ^ 53 ↔ (2 ^ 54 - 1) * (d * H) ≤ n := by
      rw [roundedSig]
      rw [hk, h2045] at hdm hm hs ⊢
      have hu : d * (2 * H) = 2 * (d * H) := by ring
      rw [hu] at hdm hm hs ⊢
      generalize d * H = X at *
      generalize hlo : n / (2 * X) = lo at *
      generalize hrr : n % (2 * X) = r at *
      by_cases hlo1 : lo = 2 ^ 53 - 1
      · subst hlo1
        split <;> omega
      · have h2 : 2 * X * lo ≤ 2 * X * (2 ^ 53 - 2) := Nat.mul_le_mul_left _ (by omega)
        split <;> constructor <;> intro h <;> omega
    rw [hk]
    constructor
    · intro h; by_contra hc; have := hf.2 (by omega); omega
    · intro h
      have : roundedSig n d ≠ 2 ^ 53 := fun hc => by have := hf.1 hc; omega
      omega
  · constructor
    · intro h; omega
    · intro h
      have h1 := (Nat.le_div_iff_mul_le (Nat.mul_pos hd (Nat.two_pow_pos (unitExp n d)))).1 (hs.2.resolve_left (by omega))
      have h2 : 4 * H ≤ 2 ^ unitExp n d := by
        rw [show 4 * H = 2 ^ 2046 by rw [hH, show (4 : Nat) = 2 ^ 2 by norm_num, ← Nat.pow_add]]
        exact Nat.pow_le_pow_right (by omega) (by omega)
      have h3 : d * (4 * H) ≤ d * 2 ^ unitExp n d := Nat.mul_le_mul_left _ h2
      have h4 : d * (4 * H) = 4 * (d * H) := by ring
      rw [h4] at h3
      generalize d * H = X at *
      generalize d * 2 ^ unitExp n d = Y at *
      omega

/-- A rational number with this sign and, in units of 2^-1074, this magnitude. -/
def signedUnits (neg : Bool) (y : Rat) : Rat := (if neg then -y else y) / unitsPerOne

theorem abs_signedUnits_sub (neg : Bool) (y z : Rat) :
    |signedUnits neg y - signedUnits neg z| = |y - z| / unitsPerOne := by
  have hp := unitsPerOne_pos
  rw [signedUnits, signedUnits, ← sub_div, abs_div, abs_of_pos hp]
  cases neg
  · simp
  · simp only [if_true]; rw [← abs_neg, show -(-y - -z) = y - z by ring]

theorem abs_signedUnits_sub_not (neg : Bool) (y z : Rat) (hy : 0 ≤ y) (hz : 0 ≤ z) :
    |signedUnits (!neg) y - signedUnits neg z| = (y + z) / unitsPerOne := by
  have hp := unitsPerOne_pos
  rw [signedUnits, signedUnits, ← sub_div, abs_div, abs_of_pos hp]
  cases neg
  · simp only [Bool.not_false, if_true, Bool.false_eq_true, if_false]
    rw [show -y - z = -(y + z) by ring, abs_neg, abs_of_nonneg (by linarith)]
  · simp only [Bool.not_true, Bool.false_eq_true, if_false, if_true]
    rw [show y - -z = y + z by ring, abs_of_nonneg (by linarith)]

theorem toRat_signedUnits (a : F64) : toRat a = signedUnits (signBit a) (magUnits a) := toRat_eq a

/-- Every operation's last step: the magnitude `n / d` with a sign, rounded once. -/
theorem roundsTo_pack (neg : Bool) (n d : Nat) (hd : 0 < d) :
    RoundsTo (signedUnits neg ((n : Rat) / d)) (pack neg (roundMag n d)) := by
  have hp := unitsPerOne_pos
  have hd' : (0 : Rat) < d := by exact_mod_cast hd
  have hy : (0 : Rat) ≤ (n : Rat) / d := div_nonneg (Nat.cast_nonneg _) (Nat.cast_nonneg _)
  have hb := roundMag_lt n d
  have hlim : ∃ L : Rat, overflowLimit = L / unitsPerOne ∧ 0 < L ∧
      ((n : Rat) / d < L ↔ roundMag n d < 2047 * 2 ^ 52) := by
    obtain ⟨H, hH⟩ : ∃ H, H = 2 ^ 2044 := ⟨_, rfl⟩
    have hH0 : 0 < H := by rw [hH]; exact Nat.two_pow_pos _
    refine ⟨((2 ^ 54 - 1) * H : Nat), ?_, ?_, ?_⟩
    · rw [eq_div_iff (ne_of_gt hp), overflowLimit, unitsPerOne, sub_mul, ← pow_add, ← pow_add, hH, Nat.sub_mul,
        Nat.one_mul, ← pow_add, Nat.cast_sub (Nat.pow_le_pow_right (by omega) (by omega)), Nat.cast_pow, Nat.cast_pow]
      rfl
    · have : 0 < (2 ^ 54 - 1) * H := by omega
      exact_mod_cast this
    · rw [roundMag_overflow n d H hd hH, div_lt_iff₀ hd']
      rw [show (2 ^ 54 - 1) * (d * H) = (2 ^ 54 - 1) * H * d by ring]
      exact_mod_cast Iff.rfl
  obtain ⟨L, hlim, hL, hlt⟩ := hlim
  have hLpos : 0 < overflowLimit := by rw [hlim]; exact div_pos hL hp
  have habs : |signedUnits neg ((n : Rat) / d)| = (n : Rat) / d / unitsPerOne := by
    have := abs_signedUnits_sub neg ((n : Rat) / d) 0
    rw [sub_zero, abs_of_nonneg hy] at this
    rw [← this]
    cases neg <;> simp [signedUnits]
  have hinf : ¬ roundMag n d < 2047 * 2 ^ 52 → pack neg (roundMag n d) = infinity neg := by
    intro h
    rw [infinity, show roundMag n d = 2047 * 2 ^ 52 by rw [roundMag_eq] at h ⊢; omega]
  refine ⟨fun hfin => ?_, fun hge => ?_, fun hle => ?_⟩
  · rw [habs, hlim, div_lt_div_iff_of_pos_right hp, hlt] at hfin
    refine ⟨(isFinite_iff _).2 (by rw [low_pack _ _ hb]; exact hfin), fun c hc => ?_⟩
    have hr : toRat (pack neg (roundMag n d)) = signedUnits neg (magOfBits (roundMag n d)) := toRat_pack neg _ hb
    have hpar : (pack neg (roundMag n d)).toNat % 2 = roundMag n d % 2 := by
      rw [toNat_pack _ _ hb]; cases neg <;> simp only [if_true, Bool.false_eq_true, if_false] <;> omega
    rw [hr, hpar, toRat_signedUnits c, magUnits_eq c, abs_signedUnits_sub]
    have near := roundMag_nearest n d hd hfin
    by_cases hsame : signBit c = neg
    · rw [hsame, abs_signedUnits_sub, div_le_div_iff_of_pos_right hp]
      have h := near (c.toNat % 2 ^ 63)
      refine ⟨h.1, fun hne he => h.2 (fun hm => hne (by rw [hm])) ?_⟩
      rwa [div_left_inj' (ne_of_gt hp)] at he
    · have hsign : signBit c = !neg := by cases hc : signBit c <;> cases neg <;> simp_all
      have hz : (0 : Rat) ≤ (magOfBits (c.toNat % 2 ^ 63) : Nat) := Nat.cast_nonneg _
      rw [hsign, abs_signedUnits_sub_not neg _ _ hz hy, div_le_div_iff_of_pos_right hp]
      have h := near 0
      have h0 : magOfBits 0 = 0 := rfl
      rw [h0, Nat.cast_zero, zero_sub, abs_neg, abs_of_nonneg hy] at h
      generalize ((magOfBits (c.toNat % 2 ^ 63) : Nat) : Rat) = M at hz
      generalize (n : Rat) / d = Y at h hy
      refine ⟨by linarith [h.1], fun hne he => h.2 ?_ ?_⟩
      · intro hm
        rw [div_left_inj' (ne_of_gt hp)] at he
        apply hne
        rw [← hm, Nat.cast_zero, zero_sub, abs_neg, abs_of_nonneg hy] at he
        have : M = 0 := by linarith
        rw [this, ← hm]; simp [signedUnits]
      · rw [div_left_inj' (ne_of_gt hp)] at he
        linarith [h.1]
  · have h : ¬ (n : Rat) / d < L := by
      intro hc
      have := div_lt_div_of_pos_right hc hp
      rw [← hlim, ← habs] at this
      linarith [le_abs_self (signedUnits neg ((n : Rat) / d))]
    rw [hlt] at h
    rw [hinf h]
    cases neg
    · rfl
    · have hneg : signedUnits true ((n : Rat) / d) ≤ 0 := by
        rw [signedUnits]; exact div_nonpos_of_nonpos_of_nonneg (by simpa using hy) (le_of_lt hp)
      linarith
  · have h : ¬ (n : Rat) / d < L := by
      intro hc
      have := div_lt_div_of_pos_right hc hp
      rw [← hlim, ← habs] at this
      linarith [neg_abs_le (signedUnits neg ((n : Rat) / d))]
    rw [hlt] at h
    rw [hinf h]
    cases neg
    · have hpos : 0 ≤ signedUnits false ((n : Rat) / d) := by
        rw [signedUnits]; exact div_nonneg (by simpa using hy) (le_of_lt hp)
      linarith
    · rfl

end Sys2Proof.Machine
end

