-- ==== Sys2Proof/Laws/Arithmetic.lean ====
section
/-! SUPPORT. The arithmetic on finite values, and the order of the values. -/

namespace Sys2Proof.Machine

open Sys2Proof.Safety

theorem isNaN_false_of_finite (a : F64) (h : isFinite a = true) : isNaN a = false := by
  simp [isFinite, isNaN] at *; intro h2; exact absurd h2 h

theorem isInf_false_of_finite (a : F64) (h : isFinite a = true) : isInf a = false := by
  simp [isFinite, isInf] at *; intro h2; exact absurd h2 h

theorem intUnits_rat (a : F64) : toRat a * unitsPerOne = intUnits a := by
  rw [toRat, div_mul_cancel₀ _ (ne_of_gt unitsPerOne_pos)]

/-- The sum of finite values: the exact sum in units, rounded once. -/
theorem fadd_finite (a b : F64) (ha : isFinite a = true) (hb : isFinite b = true) :
    fadd a b = if intUnits a + intUnits b = 0 then pack (signBit a && signBit b) 0
      else pack (decide (intUnits a + intUnits b < 0)) (roundMag (intUnits a + intUnits b).natAbs 1) := by
  simp only [fadd, isNaN_false_of_finite, isInf_false_of_finite, ha, hb, Bool.or_false, Bool.false_eq_true, if_false]

/-- The product of finite values: the exact product in units, rounded once. -/
theorem fmul_finite (a b : F64) (ha : isFinite a = true) (hb : isFinite b = true) :
    fmul a b = pack (signBit a != signBit b) (roundMag (magUnits a * magUnits b) (2 ^ 1074)) := by
  simp only [fmul, isNaN_false_of_finite, isInf_false_of_finite, ha, hb, Bool.or_false, Bool.false_eq_true, if_false]

theorem magUnits_ne_zero_isZero (b : F64) (h : magUnits b ≠ 0) : isZero b = false := by
  rw [magUnits] at h
  simp only [isZero, Bool.and_eq_false_imp, beq_iff_eq, beq_eq_false_iff_ne]
  intro h0; rw [if_pos h0] at h; exact h

/-- The quotient of finite values: the exact quotient in units, rounded once. -/
theorem fdiv_finite (a b : F64) (ha : isFinite a = true) (hb : isFinite b = true) (h : magUnits b ≠ 0) :
    fdiv a b = pack (signBit a != signBit b) (roundMag (magUnits a * 2 ^ 1074) (magUnits b)) := by
  simp only [fdiv, isNaN_false_of_finite, isInf_false_of_finite, ha, hb, magUnits_ne_zero_isZero b h, Bool.or_false,
    Bool.false_eq_true, if_false]

theorem roundMag_zero (d : Nat) : roundMag 0 d = 0 := by simp [roundMag]

theorem roundsTo_zero (neg : Bool) : RoundsTo 0 (pack neg 0) := by
  have h := roundsTo_pack neg 0 1 (by norm_num)
  rw [roundMag_zero] at h
  simpa [signedUnits] using h

theorem fneg_low (b : F64) : (fneg b).toNat % 2^63 = b.toNat % 2^63 ∧ signBit (fneg b) = !signBit b := by
  constructor
  · have : ∀ i, i < 63 → (fneg b).getLsbD i = b.getLsbD i := by
      intro i hi
      simp only [fneg, BitVec.getLsbD_xor]
      have : (0x8000000000000000 : BitVec 64).getLsbD i = false := by
        interval_cases i <;> rfl
      rw [this]; simp
    apply Nat.eq_of_testBit_eq
    intro i
    rw [Nat.testBit_mod_two_pow, Nat.testBit_mod_two_pow]
    by_cases hi : i < 63
    · have := this i hi; simpa [BitVec.getLsbD, hi] using this
    · simp [hi]
  · simp [signBit, fneg]

theorem fneg_finite (b : F64) (h : isFinite b = true) : isFinite (fneg b) = true := by
  rw [isFinite_iff] at *; rw [(fneg_low b).1]; exact h

theorem toRat_fneg (b : F64) : toRat (fneg b) = - toRat b := by
  rw [toRat_eq, toRat_eq, magUnits_eq, magUnits_eq, (fneg_low b).1, (fneg_low b).2]
  cases signBit b <;> simp <;> ring

/-- The bits without sign are ordered as the magnitudes they denote. -/
theorem magOfBits_lt (a b : Nat) : a < b ↔ magOfBits a < magOfBits b := by
  have mono : ∀ a b, a < b → magOfBits a < magOfBits b := by
    intro a b h
    simp only [magOfBits]
    generalize hea : a / 2^52 = ea
    generalize hfa : a % 2^52 = fa
    generalize heb : b / 2^52 = eb
    generalize hfb : b % 2^52 = fb
    have hfa' : fa < 2^52 := by omega
    have hfb' : fb < 2^52 := by omega
    by_cases ha0 : ea = 0
    · rw [if_pos ha0]
      by_cases hb0 : eb = 0
      · rw [if_pos hb0]; omega
      · rw [if_neg hb0]
        have : 0 < 2^(eb-1) := Nat.two_pow_pos _
        have : (2^52+fb) * 1 ≤ (2^52+fb) * 2^(eb-1) := Nat.mul_le_mul_left _ this
        omega
    · have hb0 : eb ≠ 0 := by omega
      rw [if_neg ha0, if_neg hb0]
      rcases Nat.lt_or_ge ea eb with hlt | hge
      · have h1 : 2^(ea-1) * 2 ≤ 2^(eb-1) := by
          rw [← Nat.pow_succ]; exact Nat.pow_le_pow_right (by omega) (by omega)
        calc (2^52+fa) * 2^(ea-1) < (2^52*2) * 2^(ea-1) := Nat.mul_lt_mul_of_pos_right (by omega) (Nat.two_pow_pos _)
          _ = 2^52 * (2^(ea-1)*2) := by ring
          _ ≤ 2^52 * 2^(eb-1) := Nat.mul_le_mul_left _ h1
          _ ≤ _ := Nat.mul_le_mul_right _ (by omega)
      · have : ea = eb := by omega
        subst this
        exact Nat.mul_lt_mul_of_pos_right (by omega) (Nat.two_pow_pos _)
  refine ⟨mono a b, fun h => ?_⟩
  by_contra hc
  rcases Nat.lt_or_ge b a with h2 | h2
  · have := mono _ _ h2; omega
  · have : a = b := by omega
    subst this; omega

/-- The order key orders the values. -/
theorem key_lt (a b : F64) : orderKey a < orderKey b ↔ toRat a < toRat b := by
  have hp := unitsPerOne_pos
  rw [toRat, toRat, div_lt_div_iff_of_pos_right hp, Int.cast_lt, orderKey, orderKey, intUnits, intUnits, magUnits_eq, magUnits_eq]
  generalize a.toNat % 2^63 = x
  generalize b.toNat % 2^63 = y
  have h1 := magOfBits_lt x y
  have h2 := magOfBits_lt y x
  have h3 := magOfBits_lt 0 x
  have h4 := magOfBits_lt 0 y
  have h0 : magOfBits 0 = 0 := rfl
  rw [h0] at h3 h4
  cases signBit a <;> cases signBit b <;> simp only [if_true, Bool.false_eq_true, if_false] <;> omega

/-- Magnitudes have one spelling. -/
theorem magOfBits_inj {a b : Nat} (h : magOfBits a = magOfBits b) : a = b := by
  have h1 := magOfBits_lt a b
  have h2 := magOfBits_lt b a
  omega

/-- A finite value rounds to itself. -/
theorem roundMag_self (b : Nat) (hb : b < 2047 * 2^52) : roundMag (magOfBits b) 1 = b := by
  have hfin : roundMag (magOfBits b) 1 < 2047 * 2 ^ 52 := by
    obtain ⟨H, hH⟩ : ∃ H, H = 2 ^ 2044 := ⟨_, rfl⟩
    rw [roundMag_overflow _ 1 H (by norm_num) hH]
    have step : magOfBits b ≤ magOfBits (2046 * 2^52 + (2^52-1)) := by
      rcases Nat.lt_or_ge b (2046 * 2^52 + (2^52-1)) with h | h
      · exact le_of_lt ((magOfBits_lt _ _).1 h)
      · rw [show b = 2046 * 2^52 + (2^52-1) by omega]
    have e3 : magOfBits (2046 * 2^52 + (2^52-1)) = (2^53-1) * 2^2045 := by
      have := magOfBits_scaled 2045 (2^53-1) (by norm_num) (.inr (by norm_num))
      rw [← this, show 2046 * 2^52 + (2^52-1) = 2045 * 2^52 + (2^53-1) by norm_num]
    have e4 : (2^53-1) * 2^2045 = (2^54-2) * H := by
      rw [show 2^2045 = 2 * H by rw [hH, ← Nat.pow_succ'], ← Nat.mul_assoc, show (2^53-1)*2 = 2^54-2 by norm_num]
    have : 0 < H := by rw [hH]; exact Nat.two_pow_pos _
    rw [e3, e4] at step
    generalize magOfBits b = z at *
    omega
  have := (roundMag_nearest (magOfBits b) 1 (by norm_num) hfin b).1
  rw [Nat.cast_one, div_one, sub_self, abs_zero] at this
  have := sub_eq_zero.1 (abs_nonpos_iff.1 this)
  exact magOfBits_inj (by exact_mod_cast this)

/-- What an operation rounds is no NaN. -/
theorem isNaN_pack_roundMag (neg : Bool) (n d : Nat) : isNaN (pack neg (roundMag n d)) = false := by
  have hl := roundMag_lt n d
  rw [isNaN, expField_pack _ _ hl, fracField_pack _ _ hl, roundMag_eq]
  have : ∀ b, b ≤ 2047 * 2^52 → (b / 2^52 == 2047 && b % 2^52 != 0) = false := by
    intro b hb; simp; omega
  exact this _ (by omega)

/-- `NAN_BITS` is a NaN (42_linearization.md rule R104). -/
theorem isNaN_nanBits : isNaN nanBits = true := by
  rw [nanBits, someNaN]; split
  · assumption
  · rfl

theorem toRat_lt_overflowLimit (a : F64) (h : isFinite a = true) : |toRat a| < overflowLimit := by
  have hl := (isFinite_iff a).1 h
  have hr := roundMag_self _ hl
  have hz := roundsTo_pack (signBit a) (magOfBits (a.toNat % 2 ^ 63)) 1 (by norm_num)
  rw [hr, pack_self, Nat.cast_one, div_one, ← magUnits_eq, ← toRat_signedUnits] at hz
  have hi (neg : Bool) (e : a = infinity neg) : False := by
    rw [e] at h; cases neg <;> exact absurd h (by decide)
  rw [abs_lt]
  constructor
  · by_contra hc; exact hi true (hz.2.2 (not_lt.1 hc))
  · by_contra hc; exact hi false (hz.2.1 (not_lt.1 hc))

/-- Rounding stays within any binary64 bound: it is how a finite result is shown to be one. -/
theorem roundsTo_bound {x : Rat} {r : F64} (h : RoundsTo x r) (c : F64) (hc : isFinite c = true) (hx : |x| ≤ toRat c) :
    isFinite r = true ∧ |toRat r| ≤ toRat c := by
  have hlim := lt_of_le_of_lt (le_trans hx (le_abs_self _)) (toRat_lt_overflowLimit c hc)
  obtain ⟨hr, near⟩ := h.1 hlim
  have h1 := (near c hc).1
  have h2 := (near (fneg c) (fneg_finite c hc)).1
  rw [toRat_fneg] at h2
  have hx2 := abs_le.1 hx
  refine ⟨hr, abs_le.2 ⟨?_, ?_⟩⟩
  · by_contra hn
    rw [abs_of_neg (by linarith), abs_of_nonpos (by linarith)] at h2; linarith
  · by_contra hn
    rw [abs_of_pos (by linarith), abs_of_nonneg (by linarith)] at h1; linarith

/-- A whole number below 2^53 is a binary64 value. -/
theorem exact_round (n : Nat) (h : n < 2^53) :
    magOfBits (roundMag (n * 2 ^ 1074) 1) = n * 2^1074 ∧ roundMag (n * 2 ^ 1074) 1 < 2047 * 2^52 := by
  have hb : ∃ b, b < 2047 * 2^52 ∧ magOfBits b = n * 2^1074 := by
    by_cases h0 : n = 0
    · exact ⟨0, by norm_num, by subst h0; simp [magOfBits]⟩
    · have hl := Nat.log2_self_le h0
      have hl2 := Nat.lt_log2_self (n := n)
      have h53 : n.log2 < 53 := (Nat.log2_lt h0).2 h
      refine ⟨(1074 + n.log2 - 52) * 2^52 + n * 2^(52 - n.log2), ?_, ?_⟩
      · have : n * 2^(52 - n.log2) < 2^(n.log2+1) * 2^(52 - n.log2) := Nat.mul_lt_mul_of_pos_right hl2 (Nat.two_pow_pos _)
        rw [← Nat.pow_add, show n.log2 + 1 + (52 - n.log2) = 53 by omega] at this
        omega
      · rw [magOfBits_scaled]
        · rw [Nat.mul_assoc, ← Nat.pow_add]; congr 2; omega
        · have : n * 2^(52 - n.log2) < 2^(n.log2+1) * 2^(52 - n.log2) := Nat.mul_lt_mul_of_pos_right hl2 (Nat.two_pow_pos _)
          rw [← Nat.pow_add, show n.log2 + 1 + (52 - n.log2) = 53 by omega] at this
          omega
        · right
          calc 2^52 = 2^n.log2 * 2^(52 - n.log2) := by rw [← Nat.pow_add]; congr 1; omega
            _ ≤ _ := Nat.mul_le_mul_right _ hl
  obtain ⟨b, hb1, hb2⟩ := hb
  have hfin : roundMag (n * 2 ^ 1074) 1 < 2047 * 2^52 := by
    obtain ⟨H, hH⟩ : ∃ H, H = 2 ^ 2044 := ⟨_, rfl⟩
    rw [roundMag_overflow _ 1 H (by norm_num) hH]
    have : n * 2^1074 ≤ n * H := Nat.mul_le_mul_left _ (by rw [hH]; exact Nat.pow_le_pow_right (by omega) (by omega))
    generalize n * 2^1074 = z at *
    have : n * H ≤ (2^53-1) * H := Nat.mul_le_mul_right _ (by omega)
    have : 0 < H := by rw [hH]; exact Nat.two_pow_pos _
    omega
  refine ⟨?_, hfin⟩
  have := (roundMag_nearest (n * 2^1074) 1 (by norm_num) hfin b).1
  rw [hb2, Nat.cast_one, div_one, sub_self, abs_zero] at this
  have := abs_nonpos_iff.1 this
  have := sub_eq_zero.1 this
  exact_mod_cast this

/-! ### The values that are no finite numbers, and zeros -/

@[simp] theorem isNaN_infinity (neg : Bool) : isNaN (infinity neg) = false := by cases neg <;> rfl
@[simp] theorem isInf_infinity (neg : Bool) : isInf (infinity neg) = true := by cases neg <;> rfl
@[simp] theorem isZero_infinity (neg : Bool) : isZero (infinity neg) = false := by cases neg <;> rfl
@[simp] theorem signBit_infinity (neg : Bool) : signBit (infinity neg) = neg := by cases neg <;> rfl
@[simp] theorem fneg_infinity (neg : Bool) : fneg (infinity neg) = infinity (!neg) := by cases neg <;> rfl

/-- An infinity is known by its sign. -/
theorem infinity_of_isInf (a : F64) (h : isInf a = true) : a = infinity (signBit a) := by
  simp only [isInf, Bool.and_eq_true, beq_iff_eq] at h
  rw [expField_eq, fracField_eq] at h
  rw [infinity, ← show a.toNat % 2 ^ 63 = 2047 * 2 ^ 52 by omega, pack_self]

/-- Every value is a NaN, an infinity or finite. -/
theorem value_cases (a : F64) : isNaN a = true ∨ isFinite a = true ∨ isInf a = true := by
  simp only [isNaN, isFinite, isInf]
  by_cases he : expField a = 2047 <;> by_cases hf : fracField a = 0 <;> simp [he, hf]

/-- The other sign keeps a NaN a NaN. -/
theorem isNaN_fneg (b : F64) : isNaN (fneg b) = isNaN b := by
  simp only [isNaN, expField_eq, fracField_eq, (fneg_low b).1]

/-- An arithmetic NaN is a NaN; no more is known of it (log entry 9). -/
@[simp] theorem isNaN_arithNaN (a b : F64) : isNaN (arithNaN a b) = true := by
  rw [arithNaN, someNaN]; split
  · assumption
  · rfl

theorem magUnits_eq_zero_iff (b : F64) : magUnits b = 0 ↔ isZero b = true := by
  constructor
  · intro h
    by_contra hz
    rw [magUnits] at h
    split at h
    · rename_i he; exact hz (by simp [isZero, he, h])
    · have := Nat.mul_pos (show 0 < 2 ^ 52 + fracField b by omega) (Nat.two_pow_pos (expField b - 1))
      omega
  · intro h
    simp only [isZero, Bool.and_eq_true, beq_iff_eq] at h
    rw [magUnits, if_pos h.1, h.2]

/-- A finite value denotes zero exactly if it is one of the two zeros. -/
theorem toRat_eq_zero_iff (b : F64) : toRat b = 0 ↔ isZero b = true := by
  rw [← magUnits_eq_zero_iff, toRat_signedUnits, signedUnits, div_eq_zero_iff, or_iff_left (ne_of_gt unitsPerOne_pos)]
  cases signBit b <;> simp

end Sys2Proof.Machine
end

