-- ==== Sys2Proof/Laws/FrameDecode.lean ====
section
/-! SUPPORT. The frame decoder and the five projections, one equation each. -/

namespace Sys2Proof.Machine

open Sys2Proof.Safety

/-! Cite these rather than `rfl`: a definitional check can run into the arithmetic of `fmul` before it meets the
projection. -/

theorem project_rdint (d : DecodedReading) : project .rdint d = d.internalTempC := rfl
theorem project_rdcel (d : DecodedReading) : project .rdcel d = d.correctedHotJunctionC := rfl
theorem project_rdraw (d : DecodedReading) : project .rdraw d = d.rawHotJunctionC := rfl
theorem project_rdfah (d : DecodedReading) : project .rdfah d = celsiusToFahrenheit d.correctedHotJunctionC := rfl
theorem project_rdflt (d : DecodedReading) : project .rdflt d = d.faultCode.setWidth 64 := rfl

@[simp] theorem decodeFrame_internalTempC (exp : F64 → F64) (rom : Rom) (frame : Frame) :
    (decodeFrame exp rom frame).internalTempC = internalTempC frame := by rw [decodeFrame]

@[simp] theorem decodeFrame_rawHotJunctionC (exp : F64 → F64) (rom : Rom) (frame : Frame) :
    (decodeFrame exp rom frame).rawHotJunctionC = rawHotJunctionC frame := by rw [decodeFrame]

@[simp] theorem decodeFrame_correctedHotJunctionC (exp : F64 → F64) (rom : Rom) (frame : Frame) :
    (decodeFrame exp rom frame).correctedHotJunctionC = correctedHotJunctionC exp rom frame := by rw [decodeFrame]

@[simp] theorem decodeFrame_faultCode (exp : F64 → F64) (rom : Rom) (frame : Frame) :
    (decodeFrame exp rom frame).faultCode = faultCode frame := by rw [decodeFrame]

@[simp] theorem resultOf_rdint (rom : Rom) (frame : Frame) : resultOf .rdint rom frame = internalTempC frame := by
  rw [resultOf, project_rdint, decodeFrame_internalTempC]

@[simp] theorem resultOf_rdcel (rom : Rom) (frame : Frame) :
    resultOf .rdcel rom frame = correctedHotJunctionC Config.exp rom frame := by
  rw [resultOf, project_rdcel, decodeFrame_correctedHotJunctionC]

@[simp] theorem resultOf_rdraw (rom : Rom) (frame : Frame) : resultOf .rdraw rom frame = rawHotJunctionC frame := by
  rw [resultOf, project_rdraw, decodeFrame_rawHotJunctionC]

@[simp] theorem resultOf_rdfah (rom : Rom) (frame : Frame) :
    resultOf .rdfah rom frame = celsiusToFahrenheit (correctedHotJunctionC Config.exp rom frame) := by
  rw [resultOf, project_rdfah, decodeFrame_correctedHotJunctionC]

@[simp] theorem resultOf_rdflt (rom : Rom) (frame : Frame) :
    resultOf .rdflt rom frame = (faultCode frame).setWidth 64 := by
  rw [resultOf, project_rdflt, decodeFrame_faultCode]

/-- The three fields the decoder reads, as slices of the frame (30_encoding.md rule R46). -/
theorem extract_cj (f : Frame) : (f.extractLsb 15 4).toNat = cjField f := by
  simp [cjField, BitVec.extractLsb, BitVec.extractLsb', Nat.shiftRight_eq_div_pow]

theorem extract_hj (f : Frame) : (f.extractLsb 31 18).toNat = hjField f := by
  simp [hjField, BitVec.extractLsb, BitVec.extractLsb', Nat.shiftRight_eq_div_pow]

theorem extract_fault (f : Frame) : f.extractLsb 2 0 = faultCode f := by
  apply BitVec.eq_of_toNat_eq
  simp [faultCode, BitVec.extractLsb, BitVec.extractLsb', Nat.shiftRight_eq_div_pow]

/-- The fault test as arithmetic (41_frame_decode.md rule R70). -/
theorem faulted_eq (frame : Frame) : faulted frame = decide (frame.toNat % 8 ≠ 0) := by
  have h : faultCode frame = 0 ↔ frame.toNat % 8 = 0 := by
    rw [← BitVec.toNat_inj]; simp [faultCode]
  rw [faulted, bne, beq_eq_decide, ← decide_not, decide_eq_decide, ne_eq, not_iff_not]
  exact h

theorem rawHotJunctionC_faulted (frame : Frame) (h : faulted frame = true) : rawHotJunctionC frame = nanBits := by
  simp only [rawHotJunctionC, h, if_true]

theorem rawHotJunctionC_sound (frame : Frame) (h : faulted frame = false) :
    rawHotJunctionC frame = fmul (i2f (hotJunction frame)) hjLsb := by
  simp only [rawHotJunctionC, h, Bool.false_eq_true, if_false]

theorem correctedHotJunctionC_faulted (exp : F64 → F64) (rom : Rom) (frame : Frame) (h : faulted frame = true) :
    correctedHotJunctionC exp rom frame = nanBits := by
  simp only [correctedHotJunctionC, h, if_true]

theorem correctedHotJunctionC_sound (exp : F64 → F64) (rom : Rom) (frame : Frame) (h : faulted frame = false) :
    correctedHotJunctionC exp rom frame = linearize exp rom (internalTempC frame) (rawHotJunctionC frame) := by
  simp only [correctedHotJunctionC, h, Bool.false_eq_true, if_false]

theorem hotJunction_eq (frame : Frame) : hotJunction frame = sext 14 (frame.toNat / 2 ^ 18) := by
  rw [hotJunction, hjField, Nat.mod_eq_of_lt]
  have := frame.isLt
  omega

/-- `sext` is the two's complement reading of an `N`-bit value (00_scope.md rule R6). -/
theorem sext_eq_toInt (N : Nat) (v : BitVec N) : sext N v.toNat = v.toInt := by
  rw [sext, BitVec.toInt_eq_msb_cond, BitVec.msb_eq_getLsbD_last, BitVec.getLsbD]
  norm_cast

end Sys2Proof.Machine
end

