-- ==== Sys2Proof/Laws/Invariant.lean ====
section
/-! SUPPORT. `Safety.Inv` under each shared operation: every operation keeps it and none of them stops. -/

namespace Sys2Proof.Machine

open Sys2Proof.Safety

/-- The invariant does not read the response outputs or the events. -/
theorem inv_with {s : State} (h : Inv s) (response : Option Response) (events : List Event) :
    Inv { s with response := response, events := events } :=
  ⟨h.idle, h.busyValid, h.framePhase, h.returned, h.pollForm⟩

theorem inv_refuse {s : State} (h : Inv s) (status : Status) : Inv (refuse status s) := inv_with h _ s.events

theorem inv_applyReset (s : State) : Inv (applyReset s) :=
  ⟨fun _ => ⟨rfl, rfl, rfl, rfl⟩, fun h => absurd h (by simp), fun h => absurd h (by simp), fun _ => ⟨rfl, rfl⟩,
    fun p h => absurd h (by simp)⟩

theorem inv_accepted {s : State} (op : ReadOp) (h : Inv s) (hr : Ready s) : Inv (accepted s op) := by
  have hi := h.idle hr.2.1
  refine ⟨fun hb => absurd hb (by simp [accepted, State.busy]), fun _ => hr.1, fun _ => ?_, fun hp => ?_, fun p hp => ?_⟩
  · simp [accepted, hi.2.2.2]
  · simp [accepted] at hp
  · simp only [accepted, Option.some.injEq] at hp
    subst hp
    exact ⟨by simp, fun _ => ⟨rfl, hi.2.1⟩⟩

theorem inv_acquirerTurn {s : State} (level : Bool) (h : Inv s) : Inv (acquirerTurn level s) := by
  rcases acquirerTurn_cases level s with ⟨_, e⟩ | ⟨p, hp, hcase⟩
  · rwa [e]
  · have hb : s.busy = true := by
      by_contra hb
      have := (h.idle (by simpa using hb)).2.2.1
      simp [hp] at this
    have hf : s.frame = none := by
      have := (h.framePhase hb)
      simp [hp] at this
      exact this
    have hpf := h.pollForm p hp
    rcases hcase with ⟨hc, e⟩ | ⟨hc, hk, e⟩ | ⟨hc, hk, hn, e⟩ | ⟨hc, hk, hn, e⟩ <;> rw [e]
    · refine ⟨fun x => absurd (show s.busy = false from x) (by simp [hb]), h.busyValid, h.framePhase, fun x => ?_,
        fun q hq => ?_⟩
      · simp [hp] at x
      · exact ⟨(h.pollForm q hq).1, fun x => by simp at x⟩
    · refine ⟨fun x => absurd (show s.busy = false from x) (by simp [hb]), h.busyValid, h.framePhase, fun x => ?_,
        fun q hq => ?_⟩
      · simp [hp] at x
      · exact ⟨(h.pollForm q hq).1, fun x => by simp [hc] at x⟩
    · refine ⟨fun x => absurd (show s.busy = false from x) (by simp [hb]), h.busyValid, fun _ => ?_, fun x => ?_,
        fun q hq => ?_⟩
      · simp [hf]
      · simp at x
      · simp only [Option.some.injEq] at hq
        subst hq
        exact ⟨by simpa using hn, fun x => by simp [hc] at x⟩
    · refine ⟨fun x => absurd (show s.busy = false from x) (by simp [hb]), h.busyValid, fun _ => ?_, fun _ => ?_,
        fun q hq => ?_⟩
      · simp
      · exact ⟨rfl, hk⟩
      · simp at hq

/-- The decoder's turn never stops a state that meets the invariant, and keeps it. -/
theorem inv_decoderTurn {s : State} (h : Inv s) : ∃ t, decoderTurn s = .next t ∧ Inv t := by
  rcases decoderTurn_cases s with ⟨_, e⟩ | ⟨op, ho, hp, ⟨hf, _⟩ | ⟨frame, hf, e⟩⟩
  · exact ⟨s, e, h⟩
  · have hb : s.busy = true := by simp [State.busy, ho]
    have := (h.framePhase hb).2 hp
    simp [hf] at this
  · refine ⟨_, e, ?_, ?_, ?_, ?_, ?_⟩
    · exact fun _ => ⟨(h.returned hp).1, (h.returned hp).2, hp, rfl⟩
    · exact fun x => absurd x (by simp)
    · exact fun x => absurd x (by simp)
    · exact fun _ => h.returned hp
    · exact fun q hq => h.pollForm q hq

/-- The run of an operation never stops a state that meets the invariant, and keeps it. -/
theorem inv_runOperation (events : List Event) {s : State} (h : Inv s) :
    ∃ t, runOperation events s = .next t ∧ Inv t := by
  induction events generalizing s with
  | nil => exact ⟨s, rfl, h⟩
  | cons e rest ih =>
    cases e with
    | request w => exact ⟨s, rfl, h⟩
    | reset => exact ⟨s, rfl, h⟩
    | acquirerTurn level =>
      cases hp : s.poll with
      | none => exact ⟨s, by simp [runOperation, hp], h⟩
      | some p =>
        rw [runOperation_turn level rest s p hp]
        exact ih (inv_acquirerTurn level (inv_with h s.response rest))
    | decoderTurn =>
      cases hp : s.poll with
      | some p => exact ⟨s, by simp [runOperation, hp], h⟩
      | none =>
        rw [runOperation_decoder rest s hp]
        exact inv_decoderTurn (inv_with h s.response rest)

theorem inv_performRead (op : ReadOp) {s : State} (h : Inv s) : ∃ t, performRead op s = .next t ∧ Inv t := by
  rcases performRead_cases op s with ⟨_, e⟩ | ⟨_, _, e⟩ | ⟨hb, _, hl, _⟩ | ⟨hr, e⟩
  · exact ⟨_, e, inv_refuse h _⟩
  · exact ⟨_, e, inv_refuse h _⟩
  · have := h.idle hb
    simp [this.1, this.2.1] at hl
  · rw [e]
    exact inv_runOperation _ (inv_accepted op h hr)

/-- A presented word never stops a state that meets the invariant, and keeps it. -/
theorem inv_present (w : HostWord) {s : State} (h : Inv s) : ∃ t, present w s = .next t ∧ Inv t := by
  rcases present_cases w s with ⟨status, e⟩ | ⟨_, _, op, e⟩ | ⟨hb, _, strategy, pins, e⟩
  · exact ⟨_, e, inv_refuse h _⟩
  · rw [e]; exact inv_performRead op h
  · refine ⟨_, e, ?_⟩
    have := h.idle hb
    refine ⟨fun _ => ⟨rfl, rfl, this.2.2⟩, fun _ => rfl, fun x => absurd (show s.busy = true from x) (by simp [hb]),
      fun _ => ⟨rfl, rfl⟩, fun q hq => absurd (show s.poll = some q from hq) (by simp [this.2.2.1])⟩

end Sys2Proof.Machine
end

