-- ==== Sys2Proof/Laws/PerInstr.lean ====
section
/-! SUPPORT. The statements made per instruction: one lemma for each constructor of `Instr`. -/

namespace Sys2Proof.Laws.EncodeInterface

/-- Each operation is encoded for the interface it is presented on (30_encoding.md rules R49 and R57): a read as a `CMD`
word with one of the five codes, `INIT` as an `INITCMD` word whose bit 0 is its strategy. -/
def Statement : Instr → Prop
  | .init strategy pins => ∃ w, encode (.init strategy pins) = .initCmd w ∧ w.getLsbD 0 = strategyBit strategy
  | i => ∃ w, encode i = .cmd w ∧ w.toNat < 5

theorem rdint : Statement .rdint := ⟨0b000, rfl, by decide⟩
theorem rdcel : Statement .rdcel := ⟨0b001, rfl, by decide⟩
theorem rdraw : Statement .rdraw := ⟨0b010, rfl, by decide⟩
theorem rdfah : Statement .rdfah := ⟨0b011, rfl, by decide⟩
theorem rdflt : Statement .rdflt := ⟨0b100, rfl, by decide⟩

theorem init (strategy : Strategy) (pins : Pins) : Statement (.init strategy pins) := by
  refine ⟨encodeInitCmd strategy pins, rfl, ?_⟩
  rw [encodeInitCmd, BitVec.getLsbD_ofNat, Nat.testBit_zero]
  cases strategy <;> simp [strategyBit]

end Sys2Proof.Laws.EncodeInterface
end

