-- ==== Sys2Proof/Laws/Run.lean ====
section
/-! SUPPORT. Running the core step by step. -/

namespace Sys2Proof.Machine

open Sys2Proof.Safety

@[simp] theorem run_zero (s : State) : Host.Core.run Sys2Proof.core 0 s = .next s := rfl

theorem run_next {s t : State} (n : Nat) (h : step s = .next t) :
    Host.Core.run Sys2Proof.core (n + 1) s = Host.Core.run Sys2Proof.core n t := by
  have h' : Sys2Proof.core.step s = .next t := h
  simp only [Host.Core.run, h']

/-- Two states that take the same step run alike. -/
theorem run_congr {s s' : State} (n : Nat) (h : step s = step s') :
    Host.Core.run Sys2Proof.core (n + 1) s = Host.Core.run Sys2Proof.core (n + 1) s' := by
  have h' : Sys2Proof.core.step s = Sys2Proof.core.step s' := h
  simp only [Host.Core.run, h']

theorem step_acquirerTurn {s : State} {level : Bool} {rest : List Event} (h : s.events = .acquirerTurn level :: rest) :
    step s = .next (acquirerTurn level { s with events := rest, response := none }) := by simp only [step, h]

theorem step_request {s : State} {w : HostWord} {rest : List Event} (h : s.events = .request w :: rest) :
    step s = present w { s with events := rest, response := none } := by simp only [step, h]

theorem step_decoderTurn {s : State} {rest : List Event} (h : s.events = .decoderTurn :: rest) :
    step s = decoderTurn { s with events := rest, response := none } := by simp only [step, h]

theorem step_reset {s : State} {rest : List Event} (h : s.events = .reset :: rest) :
    step s = .next (applyReset { s with events := rest }) := by simp only [step, h]

/-- A word presented while an operation is in progress is refused (43_operations.md rules R110 and R112). -/
theorem present_busy (w : HostWord) (s : State) (h : s.busy = true) :
    ∃ status, status ≠ .ok ∧ present w s = .next (refuse status s) := by
  cases hd : decode w with
  | error e =>
    exact ⟨.refusedBusy, by simp, by simp [present, hd, refuseReserved, refusalOfReserved, refusalOfRead, h]⟩
  | ok i =>
    cases i with
    | init a b => exact ⟨.refusedInit, by simp, by simp [present, hd, exec, execInit, initRefused, h]⟩
    | _ =>
      exact ⟨.refusedBusy, by simp, by
        simp [present, hd, exec, execRdint, execRdcel, execRdraw, execRdfah, execRdflt, performRead_busy, h]⟩

theorem exec_readInstr (op : ReadOp) (s : State) : exec (readInstr op) s = performRead op s := by cases op <;> rfl

end Sys2Proof.Machine
end

