-- ==== Sys2Proof/Tests/Slice0.lean ====
section
/-! SUPPORT. Tests of the model on fixed values, each with its source, and witnesses: for every statement with
hypotheses, a concrete state and operands that meet them all. The values come from the spec's tables and vectors. -/

namespace Sys2Proof.Tests

open Sys2Proof.Machine Sys2Proof.Safety

/-! ### Helpers -/

/-- The levels of one whole poll that returns `frame`, low in every turn in which `DATA` is not sampled. -/
def levelsOf (frame : Frame) : List Bool :=
  (List.range 66).map fun j => if j % 2 = 1 ∧ j < 64 then frame.getLsbD (31 - j / 2) else false

/-- A small state: initialised, idle, and this much to happen. -/
def ready (events : List Event) : State :=
  { State.reset with
    cfg := { valid := true, strategy := .hwClocked, pins := { cs := 1, sck := 2, data := 3 } }, events := events }

/-- Initialised and idle, with one whole poll of `frame` and the decoder's turn to come. -/
def polled (frame : Frame) : State := ready (turns (levelsOf frame) ++ [.decoderTurn])

/-- A read in progress whose poll is pending. -/
def pending (op : ReadOp) (events : List Event) : State := { accepted (ready []) op with events := events }

/-- The state an outcome continues with. -/
def nextOf : Host.Outcome State Fault Refusal → Option State
  | .next t => some t
  | .fault _ => none
  | .refused _ => none

/-- The response an outcome delivers. -/
def responseOf (o : Host.Outcome State Fault Refusal) : Option Response := (nextOf o).bind (·.response)

/-! ### Well-formedness: every check refuses -/

theorem test_wf_boundary : (Instr.init .swTimed { cs := 255, sck := 255, data := 255 }).wf = true := by decide
theorem test_wf_cs : (Instr.init .swTimed { cs := 256, sck := 0, data := 0 }).wf = false := by decide
theorem test_wf_sck : (Instr.init .swTimed { cs := 0, sck := 256, data := 0 }).wf = false := by decide
theorem test_wf_data : (Instr.init .swTimed { cs := 0, sck := 0, data := 256 }).wf = false := by decide
theorem test_wf_reads :
    Instr.rdint.wf ∧ Instr.rdcel.wf ∧ Instr.rdraw.wf ∧ Instr.rdfah.wf ∧ Instr.rdflt.wf := by decide

/-! ### Decoding: words written out from the tables of 30_encoding.md rules R49, R53 and R57 -/

theorem test_decode_rdint : decode (.cmd 0b000) = .ok .rdint := rfl
theorem test_decode_rdcel : decode (.cmd 0b001) = .ok .rdcel := rfl
theorem test_decode_rdraw : decode (.cmd 0b010) = .ok .rdraw := rfl
theorem test_decode_rdfah : decode (.cmd 0b011) = .ok .rdfah := rfl
theorem test_decode_rdflt : decode (.cmd 0b100) = .ok .rdflt := rfl
theorem test_decode_reserved :
    decode (.cmd 0b101) = .error (.reservedOp 0b101) ∧ decode (.cmd 0b110) = .error (.reservedOp 0b110) ∧
      decode (.cmd 0b111) = .error (.reservedOp 0b111) := ⟨rfl, rfl, rfl⟩
/-- `STRATEGY` is bit 0; the pins follow it, chip-select lowest (log entry 1). -/
theorem test_decode_init : decode (.initCmd 0b1000000001000000000000001) =
    .ok (.init .hwClocked { cs := 0, sck := 64, data := 128 }) := rfl
/-- A table word of one byte is a `CMD` word, a wider one an `INITCMD` word (log entry 2). -/
theorem test_table_word : decodeTableWord 8 0b010 = some .rdraw ∧ decodeTableWord 8 0b101 = none ∧
    decodeTableWord 32 1 = some (.init .hwClocked { cs := 0, sck := 0, data := 0 }) := ⟨rfl, rfl, rfl⟩
/-- 30_encoding.md rule R51, the codes of `STATUS`. -/
theorem test_status_codes : [Status.ok, .refusedInit, .refusedBusy, .refusedReserved].map statusCode =
    [0b00, 0b01, 0b10, 0b11] := by decide

/-! ### The CorrectionTable and the scalar constants are the nearest values to the numerals of 10_state.md -/

/-- 10_state.md rule R19, the numerals of the table. -/
theorem test_rom_fwdPos : Rom.default.fwdPos.toList = [
    lit true 17600413686 (-12), lit false 38921204975 (-12), lit false 18558770032 (-15),
      lit true 99457592874 (-18), lit false 31840945719 (-20), lit true 56072844889 (-23),
      lit false 56075059059 (-26), lit true 32020720003 (-29), lit false 97151147152 (-33),
      lit true 12104721275 (-36)] := by
  decide +kernel

/-- 10_state.md rule R20, the numerals of the table. -/
theorem test_rom_gauss : Rom.default.gauss.toList = [
    lit false 1185976 (-7), lit true 1183432 (-10), lit false 1269686 (-4)] := by
  decide +kernel

/-- 10_state.md rule R21, the numerals of the table. -/
theorem test_rom_fwdNeg : Rom.default.fwdNeg.toList = [
    lit false 0 (0), lit false 39450128025 (-12), lit false 23622373598 (-15), lit true 32858906784 (-17),
      lit true 49904828777 (-19), lit true 67509059173 (-21), lit true 57410327428 (-23),
      lit true 31088872894 (-25), lit true 10451609365 (-27), lit true 19889266878 (-30), lit true 16322697486 (-33)] := by
  decide +kernel

/-- 10_state.md rule R22, the numerals of the table. -/
theorem test_rom_invNeg : Rom.default.invNeg.toList = [
    lit false 0 (0), lit false 25173462 (-6), lit true 11662878 (-7), lit true 10833638 (-7),
      lit true 8977354 (-7), lit true 37342377 (-8), lit true 86632643 (-9), lit true 10450598 (-9),
      lit true 51920577 (-11), lit false 0 (0)] := by
  decide +kernel

/-- 10_state.md rule R23, the numerals of the table. -/
theorem test_rom_invMid : Rom.default.invMid.toList = [
    lit false 0 (0), lit false 2508355 (-5), lit false 7860106 (-8), lit true 2503131 (-7), lit false 831527 (-7),
      lit true 1228034 (-8), lit false 9804036 (-10), lit true 441303 (-10), lit false 1057734 (-12),
      lit true 1052755 (-14)] := by
  decide +kernel

/-- 10_state.md rule R24, the numerals of the table. -/
theorem test_rom_invHigh : Rom.default.invHigh.toList = [
    lit true 1318058 (-4), lit false 4830222 (-5), lit true 1646031 (-6), lit false 5464731 (-8),
      lit true 9650715 (-10), lit false 8802193 (-12), lit true 311081 (-13), lit false 0 (0), lit false 0 (0),
      lit false 0 (0)] := by
  decide +kernel

/-! ### Binary64 (42_linearization.md rule R101) -/

/-- 0.1 + 0.2, a rounding up, and a tie to even: (2^53 + 1) is halfway and rounds down. -/
theorem test_fadd_rounds : fadd 0x3FB999999999999A 0x3FC999999999999A = 0x3FD3333333333334 ∧
    fadd 0x4340000000000000 one = 0x4340000000000000 := by decide +kernel
/-- Gradual underflow: the smallest normal value less the smallest subnormal one. -/
theorem test_fsub_subnormal : fsub 0x0010000000000000 0x0000000000000001 = 0x000FFFFFFFFFFFFF := by decide +kernel
/-- Overflow of the largest finite value, and the sign of a zero product. -/
theorem test_fmul_edges : fmul 0x7FEFFFFFFFFFFFFF 0x4000000000000000 = infinity false ∧
    fmul 0x8000000000000000 five = 0x8000000000000000 := by decide +kernel
/-- 1 / 3. -/
theorem test_fdiv_third : fdiv one 0x4008000000000000 = 0x3FD5555555555555 := by decide +kernel
/-- `-0 < +0` is false and `-0 >= +0` is true (00_scope.md rule R7). -/
theorem test_compare_zeros : flt 0x8000000000000000 zero = false ∧ fge 0x8000000000000000 zero = true := by
  decide +kernel

/-! ### The frame decoder (95_test_vectors.md sections 2.2 to 2.4) -/

/-- V6, V7, V8. -/
theorem test_internal_extremes : internalTempC 0x00007FF0 = 0x405FFC0000000000 ∧
    internalTempC 0x00008000 = 0xC060000000000000 ∧ internalTempC 0x0000FFF0 = 0xBFB0000000000000 := by
  decide +kernel
/-- V11, V12, V13. -/
theorem test_raw_extremes : rawHotJunctionC 0x7FFC0000 = 0x409FFF0000000000 ∧
    rawHotJunctionC 0x80000000 = 0xC0A0000000000000 ∧ rawHotJunctionC 0xFFFC0000 = 0xBFD0000000000000 := by
  decide +kernel
/-- V15. -/
theorem test_raw_faulted : isNaN (rawHotJunctionC 0x06400001) = true := by
  rw [rawHotJunctionC_faulted _ (by decide)]; exact isNaN_nanBits
/-- V16 to V20. -/
theorem test_fault_codes : [0x06401902, 0x00010000, 0x00000008, 0x00000005, 0xFFFFFFFF].map faultCode = [2, 0, 0, 5, 7] ∧
    [0x06401902, 0x00010000, 0x00000008, 0x00000005, 0xFFFFFFFF].map faulted = [true, false, false, true, true] := by
  decide

/-! ### The linearization (95_test_vectors.md sections 2.5 to 2.8 and 2.10) -/

/-- V23. -/
theorem test_thermocouple : thermocoupleVoltage 0x405FFC0000000000 0xC0A0000000000000 = 0xC056741883BA3444 := by
  decide +kernel
/-- V26, for an exponential correctly rounded there. -/
theorem test_fwd_pos (exp : F64 → F64) (h : exp 0xBFF3B010BC4E1288 = 0x3FD2B299D59C05F2) :
    coldJunctionVoltage exp Rom.default 0x4039000000000000 = 0x3FF000FE208F1146 := by
  have hg : gaussArgument Rom.default 0x4039000000000000 = 0xBFF3B010BC4E1288 := by decide +kernel
  have hs : fge 0x4039000000000000 zero = true := by decide +kernel
  rw [coldJunctionVoltage, if_pos hs, fwdPos, gauss, hg, h]
  decide +kernel
/-- V24: `ti = +0.0` uses the positive set, for an exponential correctly rounded there. -/
theorem test_fwd_pos_at_zero (exp : F64 → F64) (h : exp 0xBFFE8667B0F764E8 = 0x3FC2FEEB0B31E806) :
    coldJunctionVoltage exp Rom.default 0x0000000000000000 = 0x3E20F50E5C800000 := by
  have hg : gaussArgument Rom.default 0x0000000000000000 = 0xBFFE8667B0F764E8 := by decide +kernel
  have hs : fge 0x0000000000000000 zero = true := by decide +kernel
  rw [coldJunctionVoltage, if_pos hs, fwdPos, gauss, hg, h]
  decide +kernel
/-- V30, V31. -/
theorem test_fwd_neg : fwdNeg Rom.default 0xC039000000000000 = 0xBFEEF7F44D4B0320 ∧
    fwdNeg Rom.default 0xC060000000000000 = 0xC0116DD0E8C2DD9D := by decide +kernel
/-- V54 to V61, V71: the selections at the boundaries. -/
theorem test_inv_select : [0x4034A4DD2F1A9FBE, 0x4034A4DD2F1A9FBD, 0x404B716872B020C5, 0x404B716872B020C4,
    0x0000000000000000, 0x8000000000000000, 0x8000000000000001, 0x7FF0000000000000].map invSelect =
    [.high, .mid, .none, .high, .mid, .mid, .neg, .none] := by decide +kernel
/-- V54, V55, V57. -/
theorem test_inverse_high_mid : inverse Rom.default 0x4034A4DD2F1A9FBE = 0x407F3F28708EFEC3 ∧
    inverse Rom.default 0x4034A4DD2F1A9FBD = 0x407F3FB015D0BB00 ∧
    inverse Rom.default 0x404B716872B020C4 = 0x4095702BC2A85B06 := by decide +kernel
/-- V59, V60, V63: a negative zero, a subnormal voltage, and the negative branch. -/
theorem test_inverse_neg : inverse Rom.default 0x8000000000000000 = 0x0000000000000000 ∧
    inverse Rom.default 0x8000000000000001 = 0x8000000000000019 ∧
    inverse Rom.default 0xBFF0000000000000 = 0xC039DB7E7E3888BF := by decide +kernel
/-- V73, V78: the order multiply, divide, add. -/
theorem test_fahrenheit : celsiusToFahrenheit 0x4058FD8FA1FDE8FF = 0x406A7DCE11CAEB4C ∧
    celsiusToFahrenheit 0x4042800000000000 = 0x4058A66666666666 := by decide +kernel

/-! ### The six instructions (95_test_vectors.md sections 2.11, 2.12 and 3) -/

/-- Program P4 step 4. -/
theorem test_rdint : responseOf (exec .rdint (polled 0x00008000)) =
    some { status := .ok, result := some 0xC060000000000000 } := by decide +kernel
/-- V85: a faulted frame still gives its internal temperature. -/
theorem test_rdint_faulted : responseOf (exec .rdint (polled 0x06411901)) =
    some { status := .ok, result := some 0x4039000000000000 } := by decide +kernel
/-- Program P4 step 9. -/
theorem test_rdcel : responseOf (exec .rdcel (polled 0xFCE0F600)) =
    some { status := .ok, result := some 0xC04B279FD66B780B } := by decide +kernel
/-- Program P3 step 5: out of range, and the raw reading is a number. -/
theorem test_rdraw : responseOf (exec .rdraw (polled 0x55C01900)) =
    some { status := .ok, result := some 0x4095700000000000 } := by decide +kernel
/-- Program P4 step 10. -/
theorem test_rdfah : responseOf (exec .rdfah (polled 0xFCE0F600)) =
    some { status := .ok, result := some 0xC050707640FA5270 } := by decide +kernel
/-- V119: and the operation is over. -/
theorem test_rdflt : responseOf (exec .rdflt (polled 0x06401905)) = some { status := .ok, result := some 5 } ∧
    (nextOf (exec .rdflt (polled 0x06401905))).map (fun t => (t.cfg.valid, t.busy, t.cs, t.frame)) =
      some (true, false, false, none) := by decide +kernel
/-- V109. -/
theorem test_init : (nextOf (exec (.init .hwClocked { cs := 1, sck := 2, data := 3 }) State.reset)).map
    (fun t => (t.cfg.valid, t.cfg.strategy, t.busy, t.response)) =
      some (true, .hwClocked, false, some { status := .ok, result := none }) := by decide
/-- V110: a second `INIT` changes nothing. -/
theorem test_init_twice : exec (.init .swTimed { cs := 4, sck := 5, data := 6 }) (ready []) =
    .next { ready [] with response := some { status := .refusedInit, result := none } } := rfl
/-- V111, V112: before `INIT` every code is refused so. -/
theorem test_refused_init : responseOf (present (.cmd 0b001) State.reset) = some { status := .refusedInit, result := none } ∧
    responseOf (present (.cmd 0b101) State.reset) = some { status := .refusedInit, result := none } := by decide
/-- V113 to V115. -/
theorem test_refused_reserved : [0b101, 0b110, 0b111].map (fun w => responseOf (present (.cmd w) (ready []))) =
    [some { status := .refusedReserved, result := none }, some { status := .refusedReserved, result := none },
      some { status := .refusedReserved, result := none }] := by decide
/-- V116 to V118: a busy block. -/
theorem test_refused_busy : responseOf (present (.cmd 0b000) (pending .rdcel [])) =
      some { status := .refusedBusy, result := none } ∧
    responseOf (present (.cmd 0b111) (pending .rdcel [])) = some { status := .refusedBusy, result := none } ∧
    responseOf (present (.initCmd 0) (pending .rdcel [])) = some { status := .refusedInit, result := none } := by decide
/-- V120: reset ends a stuck operation. -/
theorem test_reset : (nextOf (step (pending .rdcel [.reset]))).map (fun t => (t.cfg.valid, t.busy, t.response)) =
    some (false, false, none) := by decide
/-- V1 to V4: the bit order of a poll, as its 66 turns. -/
theorem test_poll_bits : [0x06401900, 0x80000000, 0x00000001, 0xFFFFFFFF].map (fun frame =>
    (nextOf (runOperation (turns (levelsOf frame)) (pending .rdint []))).bind (·.frame)) =
    [some 0x06401900, some 0x80000000, some 0x00000001, some 0xFFFFFFFF] := by decide +kernel

/-! ### Witnesses -/

theorem delivers_levelsOf (frame : Frame) : Delivers (levelsOf frame) frame := by
  refine ⟨by simp [levelsOf], fun k h1 h2 => ?_⟩
  have hj : 2 * k - 1 < 66 := by omega
  rw [levelsOf, List.getElem?_map, List.getElem?_range hj, Option.map_some, if_pos (by omega)]
  congr 2
  omega

theorem ready_ready (events : List Event) : Ready (ready events) := ⟨rfl, rfl, rfl, rfl⟩

theorem inv_reset : Safety.Inv State.reset := inv_applyReset State.reset

theorem inv_pending (op : ReadOp) (events : List Event) : Safety.Inv (pending op events) where
  idle h := by cases h
  busyValid _ := rfl
  framePhase _ := ⟨fun h => (by cases h), fun h => (by cases h)⟩
  returned h := by cases h
  pollForm p h := by cases h; exact ⟨by decide, fun _ => ⟨rfl, rfl⟩⟩

theorem witness_StepRunsTheDecodedInstruction :
    (ready [.request (.cmd 0b100), .reset]).events = .request (.cmd 0b100) :: [.reset] ∧
      decode (.cmd 0b100) = .ok .rdflt := ⟨rfl, rfl⟩

theorem witness_PlacedWordIsRunNext : decodeTableWord 8 0b011 = some .rdfah ∧
    decodeTableWord 32 0 = some (.init .swTimed { cs := 0, sck := 0, data := 0 }) := ⟨rfl, rfl⟩

theorem witness_NoEventChangesNothing : State.reset.events = [] := rfl

theorem witness_DecodeOfEncode : (Instr.init .hwClocked { cs := 255, sck := 0, data := 255 }).wf = true := by decide

theorem witness_EncodeOfDecode : decode (.cmd 0b100) = .ok .rdflt ∧
    decode (.initCmd 0x1FFFFFF) = .ok (.init .hwClocked { cs := 255, sck := 255, data := 255 }) := ⟨rfl, rfl⟩

theorem witness_InitCapturesConfigurationOnce : (ready []).cfg.valid = true ∧ (pending .rdint []).busy = true ∧
    State.reset.cfg.valid = false ∧ State.reset.busy = false := ⟨rfl, rfl, rfl, rfl⟩

/-- Each branch of the chain, the last two at the boundary codes 4 and 5. -/
theorem witness_RequestTestsAreMadeInOrder : (pending .rdcel []).busy = true ∧
    (State.reset.busy = false ∧ State.reset.cfg.valid = false) ∧
    ((ready []).busy = false ∧ (ready []).cfg.valid = true ∧ 5 ≤ (0b101 : Cmd).toNat ∧ ¬ 5 ≤ (0b100 : Cmd).toNat) := by
  decide

theorem witness_ReadIsRefusedUnlessReady : (pending .rdflt []).busy = true ∧ State.reset.busy = false ∧
    State.reset.cfg.valid = false := ⟨rfl, rfl, rfl⟩

/-- The premises of the five statements about a read's answer (`RdintAnswersInternalTemperature` and the four others). -/
theorem witness_read_answers (frame : Frame) : Ready (polled frame) ∧ Delivers (levelsOf frame) frame ∧
    (polled frame).events = turns (levelsOf frame) ++ .decoderTurn :: [] :=
  ⟨ready_ready _, delivers_levelsOf frame, rfl⟩

theorem witness_RdintAnswersInternalTemperature : Ready (polled 0x00008000) ∧
    Delivers (levelsOf 0x00008000) 0x00008000 ∧
    (polled 0x00008000).events = turns (levelsOf 0x00008000) ++ .decoderTurn :: [] := witness_read_answers _

theorem witness_RdcelAnswersCorrectedTemperature : Ready (polled 0x06401900) ∧
    Delivers (levelsOf 0x06401900) 0x06401900 ∧
    (polled 0x06401900).events = turns (levelsOf 0x06401900) ++ .decoderTurn :: [] := witness_read_answers _

theorem witness_RdrawAnswersRawTemperature : Ready (polled 0x7FFC0000) ∧
    Delivers (levelsOf 0x7FFC0000) 0x7FFC0000 ∧
    (polled 0x7FFC0000).events = turns (levelsOf 0x7FFC0000) ++ .decoderTurn :: [] := witness_read_answers _

theorem witness_RdfahAnswersFahrenheit : Ready (polled 0x06401901) ∧
    Delivers (levelsOf 0x06401901) 0x06401901 ∧
    (polled 0x06401901).events = turns (levelsOf 0x06401901) ++ .decoderTurn :: [] := witness_read_answers _

theorem witness_RdfltAnswersFaultCode : Ready (polled 0xFFFFFFFF) ∧
    Delivers (levelsOf 0xFFFFFFFF) 0xFFFFFFFF ∧
    (polled 0xFFFFFFFF).events = turns (levelsOf 0xFFFFFFFF) ++ .decoderTurn :: [] := witness_read_answers _

theorem witness_ReadWaitsForTheAcquirer : Ready (ready [.decoderTurn]) ∧
    ∀ level rest, (ready [.decoderTurn]).events ≠ .acquirerTurn level :: rest :=
  ⟨ready_ready _, fun _ _ h => by cases h⟩

theorem witness_HungPollIsNeverAnswered : (pending .rdcel [.request (.cmd 0b000), .decoderTurn]).busy = true ∧
    (pending .rdcel [.request (.cmd 0b000), .decoderTurn]).poll.isSome = true ∧
    ∀ e ∈ (pending .rdcel [.request (.cmd 0b000), .decoderTurn]).events, (∃ w, e = .request w) ∨ e = .decoderTurn := by
  refine ⟨rfl, rfl, fun e he => ?_⟩
  rcases List.mem_cons.1 he with rfl | he
  · exact .inl ⟨_, rfl⟩
  · exact .inr (by simpa using he)

theorem witness_FrameReadAssemblesSampledBits (frame : Frame) :
    (pending .rdraw (turns (levelsOf frame) ++ [])).inProgress = some .rdraw ∧
    (pending .rdraw (turns (levelsOf frame) ++ [])).poll = some { word := 0, sampled := 0 } ∧
    (pending .rdraw (turns (levelsOf frame) ++ [])).cs = false ∧
    (pending .rdraw (turns (levelsOf frame) ++ [])).sck = false ∧ Delivers (levelsOf frame) frame ∧
    (pending .rdraw (turns (levelsOf frame) ++ [])).events = turns (levelsOf frame) ++ [] :=
  ⟨rfl, rfl, rfl, rfl, delivers_levelsOf frame, rfl⟩

theorem witness_RequestsDoNotDisturbOperation : (pending .rdcel []).busy = true ∧
    ∀ e ∈ [Event.request (.cmd 0b000), .acquirerTurn true], (∃ w, e = .request w) ∨ ∃ level, e = .acquirerTurn level := by
  refine ⟨rfl, fun e he => ?_⟩
  rcases List.mem_cons.1 he with rfl | he
  · exact .inl ⟨_, rfl⟩
  · exact .inr ⟨true, by simpa using he⟩

theorem witness_ReadIsItsTurnsOneByOne :
    ∃ t, Ready (polled 0x06401905) ∧ exec (readInstr .rdflt) (polled 0x06401905) = .next t :=
  ⟨_, ready_ready _, by
    rw [exec_readInstr]
    exact performRead_answers .rdflt _ _ _ [] (ready_ready _) (delivers_levelsOf 0x06401905) rfl⟩

/-- Two machines that differ in the transfer strategy. -/
theorem witness_ResponseDependsOnFrameAlone :
    ∃ s s' t t' : State, s.cfg.strategy ≠ s'.cfg.strategy ∧ Ready s ∧ Ready s' ∧ s.rom = s'.rom ∧
      Delivers (levelsOf 0x06401900) 0x06401900 ∧
      s.events = turns (levelsOf 0x06401900) ++ .decoderTurn :: [] ∧
      s'.events = turns (levelsOf 0x06401900) ++ .decoderTurn :: [] ∧
      exec (readInstr .rdraw) s = .next t ∧ exec (readInstr .rdraw) s' = .next t' := by
  let s' : State := { polled 0x06401900 with cfg := { (polled 0x06401900).cfg with strategy := .swTimed } }
  have h := performRead_answers .rdraw (polled 0x06401900) _ _ [] (ready_ready _) (delivers_levelsOf 0x06401900) rfl
  have h' := performRead_answers .rdraw s' _ _ [] ⟨rfl, rfl, rfl, rfl⟩ (delivers_levelsOf 0x06401900) rfl
  rw [← exec_readInstr] at h h'
  exact ⟨_, s', _, _, by decide, ready_ready _, ⟨rfl, rfl, rfl, rfl⟩, rfl, delivers_levelsOf _, rfl, rfl, h, h'⟩

theorem witness_ErrorLeavesNoTrace : Ready (ready []) ∧ Delivers (levelsOf 0x06401901) 0x06401901 ∧
    Delivers (levelsOf 0x06401900) 0x06401900 := ⟨ready_ready _, delivers_levelsOf _, delivers_levelsOf _⟩

theorem witness_StepKeepsInvariant : ∃ t, Safety.Inv (pending .rdint [.acquirerTurn true]) ∧
    step (pending .rdint [.acquirerTurn true]) = .next t := ⟨_, inv_pending _ _, rfl⟩

theorem witness_StepNeverStops : Safety.Inv (pending .rdint [.decoderTurn]) := inv_pending _ _

theorem witness_RefusalCarriesNoResult : ∃ t r, (ready [.request (.cmd 0b111)]).events ≠ [] ∧
    step (ready [.request (.cmd 0b111)]) = .next t ∧ t.response = some r ∧ r.status ≠ .ok :=
  ⟨_, _, by decide, rfl, rfl, by decide⟩

theorem witness_ResetAbandonsTheOperation : (pending .rdcel [.reset]).events = .reset :: [] := rfl

theorem witness_ConfigurationIsImmutable : ∃ t, (ready [.request (.initCmd 1)]).cfg.valid = true ∧
    (∀ rest, (ready [.request (.initCmd 1)]).events ≠ .reset :: rest) ∧ step (ready [.request (.initCmd 1)]) = .next t :=
  ⟨_, rfl, fun _ h => (by cases h), rfl⟩

theorem witness_CorrectionTableNeverChanges : ∃ t, step (ready [.reset]) = .next t := ⟨_, rfl⟩

/-- V81 and V82 to V84 at once: bits 3, 16 and 17 differ. -/
theorem witness_IgnoredFrameBitsHaveNoEffect :
    (0x06401900 : Frame) &&& 0xFFFCFFF7 = (0x06431908 : Frame) &&& 0xFFFCFFF7 := by decide

theorem witness_OutputsDependOnTheirFields :
    ((0x06401900 : Frame).extractLsb 15 4 = (0x80001907 : Frame).extractLsb 15 4) ∧
    ((0x06401905 : Frame).extractLsb 2 0 = (0xFFFFFFFD : Frame).extractLsb 2 0) ∧
    ((0x06401900 : Frame).extractLsb 31 18 = (0x0643FFF8 : Frame).extractLsb 31 18 ∧
      (0x06401900 : Frame).extractLsb 2 0 = (0x0643FFF8 : Frame).extractLsb 2 0) ∧
    (0x06401901 : Frame).extractLsb 2 0 ≠ 0 := by decide

theorem witness_InternalTemperatureIsExact : (0xFFFF000F : Frame).extractLsb 15 4 = 0 ∧
    internalTempC 0x00008000 = internalTempC 0x06408007 := by decide +kernel

theorem witness_RawTemperatureIsExact : (0x7FFC0000 : Frame).extractLsb 2 0 = 0 ∧
    (0x0003FFF8 : Frame).extractLsb 2 0 = 0 ∧ (0x0003FFF8 : Frame).extractLsb 31 18 = 0 := by decide

theorem witness_SignExtensionFormsAgree : (0 < 32 ∧ 32 + 0 ≤ 32) ∧ (0 < 1 ∧ 1 + 31 ≤ 32) ∧
    (0 < 12 ∧ 0x800 < 2 ^ 12 ∧ Nat.testBit 0x800 (12 - 1) = true) ∧ (0 < 1 ∧ 1 < 2 ^ 1 ∧ Nat.testBit 1 (1 - 1) = true) := by
  decide

/-- The largest finite value, the smallest subnormal value, and a sum that is exactly zero. -/
theorem witness_AddAndSubtractRoundOnce : isFinite 0x7FEFFFFFFFFFFFFF = true ∧ isFinite 0x0000000000000001 = true ∧
    isFinite five = true ∧ toRat five + toRat (fneg five) = 0 ∧ toRat five - toRat five = 0 :=
  ⟨by decide, by decide, by decide, by rw [toRat_fneg, add_neg_cancel], sub_self _⟩

/-- A NaN of either sign on either side, and the largest finite value. -/
theorem witness_AddAndSubtractSpecialOperands : isNaN 0x7FF0000000000001 = true ∧ isNaN 0xFFFFFFFFFFFFFFFF = true ∧
    isFinite 0x7FEFFFFFFFFFFFFF = true := by decide

theorem witness_MultiplyRoundsOnce : isFinite 0x7FEFFFFFFFFFFFFF = true ∧ isFinite 0x8000000000000000 = true := by
  decide

theorem toRat_ne_zero (a : F64) (h : isZero a = false) : toRat a ≠ 0 := by
  rw [ne_eq, toRat_eq_zero_iff, h]; exact Bool.false_ne_true

/-- The smallest subnormal value, and both zeros. -/
theorem witness_MultiplySpecialOperands : isNaN 0x7FF8000000000000 = true ∧
    (isFinite 0x8000000000000001 = true ∧ toRat 0x8000000000000001 ≠ 0) ∧
    (isFinite 0x8000000000000000 = true ∧ toRat 0x8000000000000000 = 0) ∧
    (isFinite zero = true ∧ toRat zero = 0) :=
  ⟨by decide, ⟨by decide, toRat_ne_zero _ (by decide)⟩, ⟨by decide, (toRat_eq_zero_iff _).2 (by decide)⟩,
    ⟨by decide, (toRat_eq_zero_iff _).2 (by decide)⟩⟩

/-- The same, as dividend and divisor. -/
theorem witness_DivideSpecialOperands : isNaN 0x7FF8000000000000 = true ∧
    (isFinite five = true ∧ isFinite 0x8000000000000000 = true ∧ toRat 0x8000000000000000 = 0 ∧ toRat five ≠ 0) ∧
    (isFinite zero = true ∧ toRat zero = 0) :=
  ⟨by decide, ⟨by decide, by decide, (toRat_eq_zero_iff _).2 (by decide), toRat_ne_zero _ (by decide)⟩,
    ⟨by decide, (toRat_eq_zero_iff _).2 (by decide)⟩⟩

/-- Division by the smallest subnormal value. -/
theorem witness_DivideRoundsOnce : isFinite 0x7FEFFFFFFFFFFFFF = true ∧ isFinite 0x0000000000000001 = true ∧
    toRat 0x0000000000000001 ≠ 0 := ⟨by decide, by decide, toRat_ne_zero _ (by decide)⟩

theorem witness_ComparisonsOrderValues : isFinite 0x8000000000000000 = true ∧ isFinite zero = true ∧
    isNaN 0x7FF0000000000001 = true := by decide

theorem witness_IntegerConversionIsExact : (-9007199254740991 : Int).natAbs < 2 ^ 53 := by decide

theorem witness_InverseSetIsSelectedByVoltage : isFinite vMid = true ∧ isFinite 0x8000000000000000 = true ∧
    isNaN 0xFFFFFFFFFFFFFFFF = true := by decide

/-- The boundary values 20.644, the one below 54.886 and minus zero, and a NaN. -/
theorem witness_InverseEvaluatesTheSelectedSeries : isFinite vMid = true ∧ isFinite 0x404B716872B020C4 = true ∧
    isFinite 0x8000000000000000 = true ∧ isNaN 0x7FF8000000000000 = true := by decide

/-- Both zeros, where the forward set is selected, and the value next to them. -/
theorem witness_LinearizationFollowsItsSteps : isFinite zero = true ∧ isFinite 0x8000000000000000 = true ∧
    isFinite 0x8000000000000001 = true := by decide

theorem witness_TrailingZeroCoefficientIsIdle : isFinite (power five [one, nine].length) = true ∧
    isNaN (powerSeries [one, nine] five) = false := by decide +kernel

theorem witness_DeviceFaultInvalidatesHotJunction : (0x00000001 : Frame).extractLsb 2 0 ≠ 0 ∧
    (0x06401907 : Frame).extractLsb 2 0 ≠ 0 := by decide

/-- V47: a frame out of range whose voltage does not pass through `EXP`. -/
theorem witness_OutOfRangeInvalidatesCorrectedOnly : (0x7FFC8000 : Frame).extractLsb 2 0 = 0 ∧
    fge (totalVoltage Config.exp Rom.default (internalTempC 0x7FFC8000) (rawHotJunctionC 0x7FFC8000)) vMax = true := by
  decide +kernel

theorem witness_GaussArgumentIsInRange : 0 ≤ toRat (internalTempC 0x00000000) := by
  have h : internalTempC 0x00000000 = pack false 0 := by decide +kernel
  rw [h, toRat_pack _ _ (by norm_num)]; simp [magOfBits]

theorem witness_ScenarioAtHundredDegrees : (fun _ => 0x3FD2B299D59C05F2 : F64 → F64) 0xBFF3B010BC4E1288 = 0x3FD2B299D59C05F2 :=
  rfl

/-! An admissible exponential exists: the nearest value below in each binade of the interval. -/

/-- The value with significand `f` in the binade of unit `2 ^ u`. -/
theorem toRat_binade (u f : Nat) (hu : u < 2000) (h1 : 2 ^ 52 ≤ f) (h2 : f < 2 ^ 53) :
    isFinite (pack false (u * 2 ^ 52 + f)) = true ∧
      toRat (pack false (u * 2 ^ 52 + f)) = (f * 2 ^ u : Nat) / unitsPerOne ∧
      ulp (pack false (u * 2 ^ 52 + f)) = 2 ^ u / unitsPerOne := by
  have hb : u * 2 ^ 52 + f < 2 ^ 63 := by omega
  refine ⟨(isFinite_iff _).2 (by rw [low_pack _ _ hb]; omega), ?_, ?_⟩
  · rw [toRat_pack _ _ hb, magOfBits_scaled u f (by omega) (.inr h1)]; simp
  · rw [ulp, expField_pack _ _ hb, show (u * 2 ^ 52 + f) / 2 ^ 52 - 1 = u by omega]

/-- Every real number of a binade has a value within a unit in the last place. -/
theorem exists_faithful (y : ℝ) (u : Nat) (hu : u < 2000) (h1 : 2 ^ (52 + u) ≤ y * (unitsPerOne : ℝ))
    (h2 : y * (unitsPerOne : ℝ) < 2 ^ (53 + u)) :
    ∃ c, isFinite c = true ∧ |(toRat c : ℝ) - y| ≤ (ulp c : ℝ) := by
  have hp : (0 : ℝ) < (unitsPerOne : ℝ) := by exact_mod_cast unitsPerOne_pos
  have hq : (0 : ℝ) < 2 ^ u := by positivity
  have hfl := Nat.floor_le (show 0 ≤ y * (unitsPerOne : ℝ) / 2 ^ u from div_nonneg (le_trans (by positivity) h1) hq.le)
  have hlt := Nat.lt_floor_add_one (y * (unitsPerOne : ℝ) / 2 ^ u)
  have hlo : 2 ^ 52 ≤ ⌊y * (unitsPerOne : ℝ) / 2 ^ u⌋₊ := by
    apply Nat.le_floor
    rw [le_div_iff₀ hq, Nat.cast_pow, Nat.cast_ofNat, ← pow_add]; exact h1
  have hhi : ⌊y * (unitsPerOne : ℝ) / 2 ^ u⌋₊ < 2 ^ 53 := by
    rw [Nat.floor_lt (le_trans (Nat.cast_nonneg _) hfl), div_lt_iff₀ hq, Nat.cast_pow, Nat.cast_ofNat, ← pow_add]
    exact h2
  generalize ⌊y * (unitsPerOne : ℝ) / 2 ^ u⌋₊ = f at *
  obtain ⟨hf, hv, hl⟩ := toRat_binade u f hu hlo hhi
  refine ⟨_, hf, ?_⟩
  rw [hv, hl]
  push_cast
  rw [show (f : ℝ) * 2 ^ u / unitsPerOne - y = (f * 2 ^ u - y * unitsPerOne) / unitsPerOne by field_simp, abs_div,
    abs_of_pos hp, div_le_div_iff_of_pos_right hp]
  rw [le_div_iff₀ hq] at hfl
  rw [div_lt_iff₀ hq] at hlt
  rw [abs_le]
  constructor <;> nlinarith

/-- A real number from 1/8 up to 1, in one of its three binades. -/
theorem exists_faithful_below_one (y : ℝ) (j : Nat) (hj : j ≤ 2) (h1 : 1 ≤ 2 * (2 ^ j * y)) (h2 : 2 ^ j * y < 1) :
    ∃ c, isFinite c = true ∧ |(toRat c : ℝ) - y| ≤ (ulp c : ℝ) := by
  obtain ⟨P, hP⟩ : ∃ P : ℝ, P = 2 ^ (52 + (1021 - j)) := ⟨_, rfl⟩
  have hp : 0 < P := by rw [hP]; positivity
  have hs : (2 : ℝ) ^ (53 + (1021 - j)) = 2 * P := by rw [hP, ← pow_succ']; congr 1; omega
  have hu : (unitsPerOne : ℝ) = 2 * P * 2 ^ j := by
    rw [← hs, ← pow_add, show 53 + (1021 - j) + j = 1074 by omega, unitsPerOne, Rat.cast_pow]; rfl
  refine exists_faithful y (1021 - j) (by omega) ?_ ?_
  · rw [hu, ← hP, show y * (2 * P * 2 ^ j) = P * (2 * (2 ^ j * y)) by ring]
    nlinarith
  · rw [hu, hs, show y * (2 * P * 2 ^ j) = 2 * P * (2 ^ j * y) by ring]
    nlinarith

theorem toRat_one : toRat one = 1 := by
  have h := (toRat_binade 1022 (2 ^ 52) (by omega) le_rfl (by omega)).2.1
  have e : pack false (1022 * 2 ^ 52 + 2 ^ 52) = one := by decide
  have hu (m n : Nat) (hmn : m + n = 1074) : ((2 ^ m * 2 ^ n : Nat) : Rat) / unitsPerOne = 1 := by
    rw [← Nat.pow_add, hmn, Nat.cast_pow, unitsPerOne, Nat.cast_ofNat]
    exact div_self (pow_ne_zero 1074 (by norm_num))
  rw [e] at h
  exact h.trans (hu 52 1022 rfl)

theorem ulp_nonneg (a : F64) : (0 : ℝ) ≤ (ulp a : ℝ) := by
  have h : 0 ≤ ulp a := by
    rw [ulp]
    generalize expField a - 1 = n
    exact div_nonneg (pow_nonneg (by norm_num) n) (le_of_lt unitsPerOne_pos)
  exact_mod_cast h

theorem exists_faithful_exp (x : F64) (h1 : -2 ≤ toRat x) (h2 : toRat x ≤ 0) :
    ∃ c, isFinite c = true ∧ |(toRat c : ℝ) - Real.exp (toRat x : ℝ)| ≤ (ulp c : ℝ) := by
  have h1' : (-2 : ℝ) ≤ (toRat x : ℝ) := by exact_mod_cast h1
  have hlo : (1 : ℝ) / 8 ≤ Real.exp (toRat x : ℝ) := by
    refine le_trans ?_ (Real.exp_le_exp.2 h1')
    rw [Real.exp_neg, show (2 : ℝ) = 1 + 1 by norm_num, Real.exp_add, one_div]
    have he := Real.exp_one_lt_d9
    have hpos := Real.exp_pos 1
    apply inv_anti₀ (by positivity)
    nlinarith
  rcases eq_or_lt_of_le h2 with h0 | h0
  · refine ⟨one, by decide, ?_⟩
    rw [toRat_one, h0, Rat.cast_zero, Real.exp_zero, Rat.cast_one, sub_self, abs_zero]
    exact ulp_nonneg one
  · have hhi : Real.exp (toRat x : ℝ) < 1 := by
      rw [Real.exp_lt_one_iff]; exact_mod_cast h0
    generalize Real.exp (toRat x : ℝ) = y at *
    rcases lt_or_ge y (1 / 4) with h4 | h4
    · exact exists_faithful_below_one y 2 le_rfl (by linarith) (by linarith)
    · rcases lt_or_ge y (1 / 2) with h3 | h3
      · exact exists_faithful_below_one y 1 (by omega) (by linarith) (by linarith)
      · exact exists_faithful_below_one y 0 (by omega) (by linarith) (by linarith)

/-- An admissible exponential exists, and a fault-free frame. -/
theorem witness_LinearizationIsFiniteBelowTheLimit : ∃ exp : F64 → F64, ExpAdmissible exp ∧
    (0x06401900 : Frame).extractLsb 2 0 = 0 := by
  classical
  have zero_value (z : F64) (h : z = 0x0000000000000000 ∨ z = 0x8000000000000000) : toRat z = 0 := by
    rcases h with rfl | rfl <;> rw [toRat_signedUnits, signedUnits] <;> simp [magUnits, expField, fracField]
  have pick (x : F64) : ∃ c, (x = 0x0000000000000000 ∨ x = 0x8000000000000000 → c = one) ∧
      (-2 ≤ toRat x → toRat x ≤ 0 →
        isFinite c = true ∧ |(toRat c : ℝ) - Real.exp (toRat x : ℝ)| ≤ (ulp c : ℝ)) := by
    by_cases hz : x = 0x0000000000000000 ∨ x = 0x8000000000000000
    · refine ⟨one, fun _ => rfl, fun _ _ => ⟨by decide, ?_⟩⟩
      rw [toRat_one, zero_value x hz, Rat.cast_zero, Real.exp_zero, Rat.cast_one, sub_self, abs_zero]
      exact ulp_nonneg one
    · by_cases hr : -2 ≤ toRat x ∧ toRat x ≤ 0
      · obtain ⟨c, hc⟩ := exists_faithful_exp x hr.1 hr.2
        exact ⟨c, fun h => absurd h hz, fun _ _ => hc⟩
      · exact ⟨one, fun _ => rfl, fun h1 h2 => absurd ⟨h1, h2⟩ hr⟩
  choose exp hexp using pick
  exact ⟨exp, ⟨fun x _ h1 h2 => (hexp x).2 h1 h2, (hexp _).1 (.inl rfl), (hexp _).1 (.inr rfl)⟩, by decide⟩

end Sys2Proof.Tests
end

section
/-! PROOFS. The obligations about the binary64 primitives (00_scope.md rule R7, 42_linearization.md rules R101, R102):
first the two zeros and one rule per operation and kind of operands, then the obligations assembled from them. -/

namespace Sys2Proof.Machine

open Sys2Proof.Safety

/-! ### Zeros and signs -/

/-- The two zeros, as bit patterns. -/
theorem pack_zero (neg : Bool) : pack neg 0 = if neg then 0x8000000000000000 else 0x0000000000000000 := by
  cases neg <;> rfl

theorem unitsPerOne_eq_natCast : unitsPerOne = ((2 ^ 1074 : Nat) : Rat) := by
  rw [unitsPerOne, Nat.cast_pow, Nat.cast_ofNat]

/-- An integer number of units is its sign with its magnitude. -/
theorem signedUnits_natAbs (s : Int) : signedUnits (decide (s < 0)) (s.natAbs : Rat) = (s : Rat) / unitsPerOne := by
  rw [signedUnits, Nat.cast_natAbs]
  by_cases h : s < 0
  · rw [decide_eq_true h, if_pos rfl, abs_of_neg h, Int.cast_neg, neg_neg]
  · rw [decide_eq_false h, if_neg Bool.false_ne_true, abs_of_nonneg (not_lt.1 h)]

/-- Signs multiply as their exclusive or. -/
theorem signedUnits_mul (s t : Bool) (x y : Rat) :
    signedUnits s x * signedUnits t y = signedUnits (s != t) (x * y / unitsPerOne) := by
  cases s <;> cases t <;> simp [signedUnits] <;> ring

/-- Signs divide as their exclusive or. -/
theorem signedUnits_div (s t : Bool) (x y : Rat) :
    signedUnits s x / signedUnits t y = signedUnits (s != t) (x * unitsPerOne / y) := by
  have hp := ne_of_gt unitsPerOne_pos
  have quotient : x / unitsPerOne / (y / unitsPerOne) = x * unitsPerOne / y / unitsPerOne := by
    rw [div_div_div_cancel_right₀ hp, div_right_comm, mul_div_cancel_right₀ _ hp]
  cases s <;> cases t <;> simp [signedUnits, neg_div, div_neg, quotient]

/-! ### Sums and differences -/

theorem toRat_add (a b : F64) : toRat a + toRat b = ((intUnits a + intUnits b : Int) : Rat) / unitsPerOne := by
  rw [toRat, toRat, ← add_div, Int.cast_add]

theorem toRat_add_eq_zero_iff (a b : F64) : toRat a + toRat b = 0 ↔ intUnits a + intUnits b = 0 := by
  rw [toRat_add, div_eq_zero_iff, or_iff_left (ne_of_gt unitsPerOne_pos), Int.cast_eq_zero]

theorem toRat_sub (a b : F64) : toRat a - toRat b = toRat a + toRat (fneg b) := by rw [toRat_fneg, sub_eq_add_neg]

theorem fadd_of_exact_zero (a b : F64) (ha : isFinite a = true) (hb : isFinite b = true)
    (h : toRat a + toRat b = 0) : fadd a b = pack (signBit a && signBit b) 0 := by
  rw [fadd_finite a b ha hb, if_pos ((toRat_add_eq_zero_iff a b).1 h)]

theorem roundsTo_fadd (a b : F64) (ha : isFinite a = true) (hb : isFinite b = true) :
    RoundsTo (toRat a + toRat b) (fadd a b) := by
  by_cases hs : toRat a + toRat b = 0
  · rw [fadd_of_exact_zero a b ha hb hs, hs]
    exact roundsTo_zero _
  · rw [fadd_finite a b ha hb, if_neg (mt (toRat_add_eq_zero_iff a b).2 hs), toRat_add, ← signedUnits_natAbs,
      ← div_one (Nat.cast _), ← Nat.cast_one]
    exact roundsTo_pack _ _ 1 one_pos

theorem isNaN_fadd (a b : F64) (h : isNaN a = true ∨ isNaN b = true) : isNaN (fadd a b) = true := by
  rw [fadd, if_pos (by rwa [Bool.or_eq_true])]
  exact isNaN_arithNaN a b

theorem fadd_infinity_finite (neg : Bool) (b : F64) (hb : isFinite b = true) :
    fadd (infinity neg) b = infinity neg := by
  simp [fadd, isNaN_false_of_finite b hb, isInf_false_of_finite b hb]

theorem fadd_finite_infinity (neg : Bool) (b : F64) (hb : isFinite b = true) :
    fadd b (infinity neg) = infinity neg := by
  simp [fadd, isNaN_false_of_finite b hb, isInf_false_of_finite b hb]

theorem fadd_infinity_self (neg : Bool) : fadd (infinity neg) (infinity neg) = infinity neg := by
  simp [fadd]

/-- Infinities of opposite signs cancel to a NaN. -/
theorem isNaN_fadd_infinity_not (neg : Bool) : isNaN (fadd (infinity neg) (infinity (!neg))) = true := by
  simp [fadd]

/-! ### Products -/

theorem toRat_mul (a b : F64) : toRat a * toRat b =
    signedUnits (signBit a != signBit b) (((magUnits a * magUnits b : Nat) : Rat) / ((2 ^ 1074 : Nat) : Rat)) := by
  rw [toRat_signedUnits, toRat_signedUnits, signedUnits_mul, Nat.cast_mul, unitsPerOne_eq_natCast]

theorem isNaN_fmul (a b : F64) (h : isNaN a = true ∨ isNaN b = true) : isNaN (fmul a b) = true := by
  rw [fmul, if_pos (by rwa [Bool.or_eq_true])]
  exact isNaN_arithNaN a b

/-- An infinite factor and one that is neither a NaN nor a zero. -/
theorem fmul_of_isInf (a b : F64) (ha : isNaN a = false) (hb : isNaN b = false) (h : isInf a = true ∨ isInf b = true)
    (hza : isZero a = false) (hzb : isZero b = false) : fmul a b = infinity (signBit a != signBit b) := by
  simp only [fmul, ha, hb, hza, hzb, Bool.or_false, Bool.false_eq_true, if_false, Bool.or_eq_true, if_pos h]

/-- An infinite factor and a zero. -/
theorem isNaN_fmul_of_isInf_isZero (a b : F64) (h : isInf a = true ∨ isInf b = true)
    (hz : isZero a = true ∨ isZero b = true) : isNaN (fmul a b) = true := by
  simp only [fmul, Bool.or_eq_true, if_pos h, if_pos hz, ite_self, isNaN_arithNaN]

/-! ### Quotients -/

theorem toRat_div (a b : F64) : toRat a / toRat b =
    signedUnits (signBit a != signBit b) (((magUnits a * 2 ^ 1074 : Nat) : Rat) / (magUnits b : Rat)) := by
  rw [toRat_signedUnits, toRat_signedUnits, signedUnits_div, Nat.cast_mul, unitsPerOne_eq_natCast]

theorem magUnits_ne_zero (b : F64) (h : toRat b ≠ 0) : magUnits b ≠ 0 := by
  rwa [ne_eq, magUnits_eq_zero_iff, ← toRat_eq_zero_iff]

theorem isNaN_fdiv (a b : F64) (h : isNaN a = true ∨ isNaN b = true) : isNaN (fdiv a b) = true := by
  rw [fdiv, if_pos (by rwa [Bool.or_eq_true])]
  exact isNaN_arithNaN a b

theorem fdiv_infinity_finite (neg : Bool) (b : F64) (hb : isFinite b = true) :
    fdiv (infinity neg) b = infinity (neg != signBit b) := by
  simp [fdiv, isNaN_false_of_finite b hb, isInf_false_of_finite b hb]

theorem fdiv_finite_infinity (neg : Bool) (b : F64) (hb : isFinite b = true) :
    fdiv b (infinity neg) = pack (signBit b != neg) 0 := by
  simp [fdiv, isNaN_false_of_finite b hb, isInf_false_of_finite b hb]

theorem isNaN_fdiv_infinity_infinity (neg neg' : Bool) : isNaN (fdiv (infinity neg) (infinity neg')) = true := by
  simp [fdiv]

/-- A finite value over a zero. -/
theorem fdiv_isZero (a b : F64) (ha : isFinite a = true) (hb : isFinite b = true) (hz : isZero b = true) :
    fdiv a b = if isZero a then arithNaN a b else infinity (signBit a != signBit b) := by
  simp only [fdiv, isNaN_false_of_finite, isInf_false_of_finite, ha, hb, hz, Bool.or_false, Bool.false_eq_true,
    if_false, if_true]

/-! ### Comparisons -/

theorem flt_iff (a b : F64) (ha : isNaN a = false) (hb : isNaN b = false) :
    flt a b = true ↔ orderKey a < orderKey b := by
  simp [flt, ha, hb]

/-- Where neither operand is a NaN, `>=` is the negation of `<`. -/
theorem fge_eq_not_flt (a b : F64) (ha : isNaN a = false) (hb : isNaN b = false) : fge a b = !flt a b := by
  simp [fge, flt, ha, hb, ← decide_not]

theorem orderKey_infinity (neg : Bool) :
    orderKey (infinity neg) = if neg then -(2047 * 2 ^ 52) else 2047 * 2 ^ 52 := by
  cases neg <;> rfl

theorem orderKey_finite (a : F64) (h : isFinite a = true) :
    orderKey (infinity true) < orderKey a ∧ orderKey a < orderKey (infinity false) := by
  have hlt := (isFinite_iff a).1 h
  rw [orderKey_infinity, orderKey_infinity, orderKey]
  cases signBit a <;> simp only [if_true, Bool.false_eq_true, if_false] <;> omega

/-- Plus infinity is above and minus infinity below every finite value. -/
theorem flt_infinity (a : F64) (h : isFinite a = true) :
    flt a (infinity false) = true ∧ flt (infinity false) a = false ∧
      flt a (infinity true) = false ∧ flt (infinity true) a = true := by
  have hn := isNaN_false_of_finite a h
  obtain ⟨hlo, hhi⟩ := orderKey_finite a h
  simp only [← Bool.not_eq_true, flt_iff, hn, isNaN_infinity]
  omega

/-! ### The conversion of integers -/

theorem i2f_exact (n : Int) (h : n.natAbs < 2 ^ 53) : isFinite (i2f n) = true ∧ toRat (i2f n) = n := by
  obtain ⟨hval, hfin⟩ := exact_round n.natAbs h
  have hb := roundMag_lt (n.natAbs * 2 ^ 1074) 1
  refine ⟨(isFinite_iff _).2 (by rwa [i2f, low_pack _ _ hb]), ?_⟩
  have hp := ne_of_gt unitsPerOne_pos
  have scaled : ((n.natAbs * 2 ^ 1074 : Nat) : Rat) = n.natAbs * unitsPerOne := by
    rw [unitsPerOne_eq_natCast, Nat.cast_mul]
  calc toRat (i2f n) = signedUnits (decide (n < 0)) (n.natAbs * unitsPerOne) := by
        rw [i2f, toRat_pack _ _ hb, hval, scaled]; rfl
    _ = signedUnits (decide (n < 0)) n.natAbs * unitsPerOne := by
        rw [signedUnits, signedUnits]; split <;> ring
    _ = n := by rw [signedUnits_natAbs, div_mul_cancel₀ _ hp]

/-! ### The obligations -/

/-- Settles O37: a difference is the sum with the sign of `b` turned, and a sum is one rounding of the exact sum. -/
theorem addAndSubtractRoundOnce : Obligations.AddAndSubtractRoundOnce := by
  intro a b ha hb
  have hb' := fneg_finite b hb
  refine ⟨roundsTo_fadd a b ha hb, ?_, fun h => ?_, fun h => ?_⟩
  · rw [toRat_sub]
    exact roundsTo_fadd a (fneg b) ha hb'
  · rw [fadd_of_exact_zero a b ha hb h, pack_zero]
  · rw [toRat_sub] at h
    rw [fsub, fadd_of_exact_zero a (fneg b) ha hb' h, pack_zero, (fneg_low b).2]

/-- Settles O38: the exact product in units is a signed fraction over 2^1074, rounded by `roundMag`. -/
theorem multiplyRoundsOnce : Obligations.MultiplyRoundsOnce := by
  intro a b ha hb
  rw [fmul_finite a b ha hb, toRat_mul]
  exact ⟨roundsTo_pack _ _ _ (Nat.two_pow_pos _), signBit_pack _ _ (roundMag_lt _ _)⟩

/-- Settles O39: the exact quotient in units is a signed fraction over the divisor's magnitude. -/
theorem divideRoundsOnce : Obligations.DivideRoundsOnce := by
  intro a b ha hb h
  have hm := magUnits_ne_zero b h
  rw [fdiv_finite a b ha hb hm, toRat_div]
  exact ⟨roundsTo_pack _ _ _ (Nat.pos_of_ne_zero hm), signBit_pack _ _ (roundMag_lt _ _)⟩

/-- Settles O40: `orderKey` orders the finite values as the numbers they denote and puts the infinities at the ends. -/
theorem comparisonsOrderValues : Obligations.ComparisonsOrderValues := by
  intro a b
  refine ⟨fun ha hb => ?_, fun ha => ?_, fun h => ?_⟩
  · have hna := isNaN_false_of_finite a ha
    have hnb := isNaN_false_of_finite b hb
    have hlt : flt a b = true ↔ toRat a < toRat b := (flt_iff a b hna hnb).trans (key_lt a b)
    refine ⟨hlt, ?_⟩
    rw [fge_eq_not_flt a b hna hnb, Bool.not_eq_true', ← Bool.not_eq_true, hlt, not_lt]
  · have hna := isNaN_false_of_finite a ha
    obtain ⟨h1, h2, h3, h4⟩ := flt_infinity a ha
    simp only [fge_eq_not_flt, hna, isNaN_infinity, h1, h2, h3, h4]
    decide
  · rcases h with h | h <;> simp [flt, fge, h]

/-- Settles O41: below 2^53 in magnitude an integer is a binary64 value, so its rounding is itself. -/
theorem integerConversionIsExact : Obligations.IntegerConversionIsExact := i2f_exact

/-- Settles O55: by the kind of the operands, a difference being the sum with the sign of `b` turned. -/
theorem addAndSubtractSpecialOperands : Obligations.AddAndSubtractSpecialOperands := by
  intro a b neg
  refine ⟨?_, fun h => ⟨isNaN_fadd a b h, ?_⟩, fun hb => ?_, fadd_infinity_self neg, isNaN_fadd_infinity_not neg, ?_,
    ?_⟩
  · rcases value_cases a with h | h | h
    · exact .inl h
    · exact .inr (.inl h)
    · have ha := infinity_of_isInf a h
      cases hs : signBit a <;> rw [hs] at ha <;> simp [ha]
  · exact isNaN_fadd a (fneg b) (by rwa [isNaN_fneg])
  · refine ⟨fadd_infinity_finite neg b hb, fadd_finite_infinity neg b hb,
      fadd_infinity_finite neg _ (fneg_finite b hb), ?_⟩
    rw [fsub, fneg_infinity, fadd_finite_infinity _ b hb]
  · rw [fsub, fneg_infinity]
    exact isNaN_fadd_infinity_not neg
  · rw [fsub, fneg_infinity, Bool.not_not]
    exact fadd_infinity_self neg

/-- Settles O56: by whether the partner of the infinite factor is a NaN, a zero or neither. -/
theorem multiplySpecialOperands : Obligations.MultiplySpecialOperands := by
  intro a b neg neg'
  refine ⟨isNaN_fmul a b, fun hb h => ?_, fun hb h => ?_, ?_⟩
  · have hn := isNaN_false_of_finite b hb
    have hz : isZero b = false := by rwa [ne_eq, toRat_eq_zero_iff, Bool.not_eq_true] at h
    constructor
    · rw [fmul_of_isInf _ b (isNaN_infinity neg) hn (.inl (isInf_infinity neg)) (isZero_infinity neg) hz,
        signBit_infinity]
    · rw [fmul_of_isInf b _ hn (isNaN_infinity neg) (.inr (isInf_infinity neg)) hz (isZero_infinity neg),
        signBit_infinity]
  · have hz := (toRat_eq_zero_iff b).1 h
    exact ⟨isNaN_fmul_of_isInf_isZero _ b (.inl (isInf_infinity neg)) (.inr hz),
      isNaN_fmul_of_isInf_isZero b _ (.inr (isInf_infinity neg)) (.inl hz)⟩
  · rw [fmul_of_isInf _ _ (isNaN_infinity neg) (isNaN_infinity neg') (.inl (isInf_infinity neg)) (isZero_infinity neg)
      (isZero_infinity neg'), signBit_infinity, signBit_infinity]

/-- Settles O57: by the kind of dividend and divisor. -/
theorem divideSpecialOperands : Obligations.DivideSpecialOperands := by
  intro a b neg neg'
  refine ⟨isNaN_fdiv a b, fun hb => ⟨fdiv_infinity_finite neg b hb, ?_⟩, isNaN_fdiv_infinity_infinity neg neg',
    fun ha hb h => ?_⟩
  · rw [fdiv_finite_infinity neg b hb, pack_zero]
  · rw [fdiv_isZero a b ha hb ((toRat_eq_zero_iff b).1 h), ne_eq, toRat_eq_zero_iff]
    exact ⟨fun hz => if_neg hz, fun hz => by rw [if_pos hz, isNaN_arithNaN]⟩

end Sys2Proof.Machine
end

section
/-! PROOFS. The obligations about the state (10_state.md rules R13, R25, R28, R29): the step never stops a state that
meets the invariant and keeps it, what an operation leaves unchanged, then the obligations assembled from them. -/

namespace Sys2Proof.Machine

open Sys2Proof.Safety

/-! ### The invariant -/

/-- A step never stops a state that meets the invariant, and keeps it. -/
theorem inv_step {s : State} (h : Inv s) : ∃ t, step s = .next t ∧ Inv t := by
  rcases step_cases s with ⟨_, e⟩ | ⟨w, rest, _, e⟩ | ⟨level, rest, _, e⟩ | ⟨rest, _, e⟩ | ⟨rest, _, e⟩
  · exact ⟨s, e, h⟩
  · rw [e]
    exact inv_present w (inv_with h none rest)
  · exact ⟨_, e, inv_acquirerTurn level (inv_with h none rest)⟩
  · rw [e]
    exact inv_decoderTurn (inv_with h none rest)
  · exact ⟨_, e, inv_applyReset _⟩

/-! ### What an operation leaves unchanged -/

/-- Neither `CFG` nor the CorrectionTable is written by the decoder's turn. -/
theorem decoderTurn_frame {s t : State} (h : decoderTurn s = .next t) : t.cfg = s.cfg ∧ t.rom = s.rom := by
  rcases decoderTurn_cases s with ⟨_, e⟩ | ⟨op, _, _, ⟨_, e⟩ | ⟨frame, _, e⟩⟩ <;> cases e.symm.trans h
  · exact ⟨rfl, rfl⟩
  · exact ⟨rfl, rfl⟩

/-- Neither is written by the run of an operation, however many turns it takes. -/
theorem runOperation_frame {events : List Event} {s t : State} (h : runOperation events s = .next t) :
    t.cfg = s.cfg ∧ t.rom = s.rom := by
  induction events generalizing s with
  | nil => cases h; exact ⟨rfl, rfl⟩
  | cons e rest ih =>
    cases e with
    | request w => cases h; exact ⟨rfl, rfl⟩
    | reset => cases h; exact ⟨rfl, rfl⟩
    | acquirerTurn level =>
      cases hp : s.poll with
      | none => simp only [runOperation, hp] at h; cases h; exact ⟨rfl, rfl⟩
      | some p =>
        rw [runOperation_turn level rest s p hp] at h
        simpa using ih h
    | decoderTurn =>
      cases hp : s.poll with
      | some p => simp only [runOperation, hp] at h; cases h; exact ⟨rfl, rfl⟩
      | none =>
        rw [runOperation_decoder rest s hp] at h
        exact decoderTurn_frame (s := { s with events := rest }) h

/-- Neither is written by a read request, refused or accepted. -/
theorem performRead_frame {op : ReadOp} {s t : State} (h : performRead op s = .next t) :
    t.cfg = s.cfg ∧ t.rom = s.rom := by
  rcases performRead_cases op s with ⟨_, e⟩ | ⟨_, _, e⟩ | ⟨_, _, _, e⟩ | ⟨_, e⟩
  · cases e.symm.trans h; exact ⟨rfl, rfl⟩
  · cases e.symm.trans h; exact ⟨rfl, rfl⟩
  · cases e.symm.trans h
  · exact runOperation_frame (s := accepted s op) (e.symm.trans h)

/-- Once the configuration is valid no presented word changes it: a second `INIT` is refused (43_operations.md rule
R110). -/
theorem present_cfg {w : HostWord} {s t : State} (hv : s.cfg.valid = true) (h : present w s = .next t) :
    t.cfg = s.cfg := by
  rcases present_cases w s with ⟨status, e⟩ | ⟨_, _, op, e⟩ | ⟨_, hv', _⟩
  · cases e.symm.trans h; exact refuse_cfg status s
  · exact (performRead_frame (e.symm.trans h)).1
  · cases hv.symm.trans hv'

/-! ### The obligations -/

/-- Settles O25: each of the five kinds of step keeps the invariant, and the next state is the only one. -/
theorem stepKeepsInvariant : Obligations.StepKeepsInvariant := by
  intro s t h hs
  obtain ⟨u, hu, hi⟩ := inv_step h
  cases hu.symm.trans hs
  exact hi

/-- Settles O30: by the kind of event; `INIT` alone writes `CFG` and is refused while `CFG.VALID = 1`. -/
theorem configurationIsImmutable : Obligations.ConfigurationIsImmutable := by
  intro s t hv hreset hs
  rcases step_cases s with ⟨_, e⟩ | ⟨w, rest, _, e⟩ | ⟨level, rest, _, e⟩ | ⟨rest, _, e⟩ | ⟨rest, he, _⟩
  · cases e.symm.trans hs; rfl
  · exact present_cfg (s := { s with events := rest, response := none }) hv (e.symm.trans hs)
  · cases e.symm.trans hs
    exact acquirerTurn_cfg level _
  · exact (decoderTurn_frame (e.symm.trans hs)).1
  · exact absurd he (hreset rest)

/-- Settles O1: the reset state written out. -/
theorem resetStateIsAsStated : Obligations.ResetStateIsAsStated :=
  ⟨rfl, rfl, rfl, rfl, rfl, rfl⟩

/-- Settles O2: the invariant holds after the reset of any state, the reset state among them. -/
theorem resetMeetsInvariant : Obligations.ResetMeetsInvariant := inv_applyReset State.reset

/-- Settles O42: the bits are the definitions', and each numeral is rounded by computation. -/
theorem scalarConstantsAreNearest : Obligations.ScalarConstantsAreNearest := by
  refine ⟨⟨rfl, ?_⟩, ⟨rfl, ?_⟩, ⟨rfl, ?_⟩, ⟨rfl, ?_⟩, ⟨rfl, ?_⟩, ⟨rfl, ?_⟩, ⟨rfl, ?_⟩, ⟨rfl, ?_⟩, ⟨rfl, ?_⟩⟩ <;>
    decide +kernel

end Sys2Proof.Machine
end

section
/-! PROOFS. The obligation about the memory (20_memory.md rule R40): the CorrectionTable is written by no event. That
the reads and the decoder's turn leave it alone is `performRead_frame` and `decoderTurn_frame`; what is left is a
presented word. -/

namespace Sys2Proof.Machine

/-- A presented word never writes the CorrectionTable, whether it is refused, starts a read or initialises. -/
theorem present_rom {w : HostWord} {s t : State} (h : present w s = .next t) : t.rom = s.rom := by
  rcases present_cases w s with ⟨status, e⟩ | ⟨_, _, op, e⟩ | ⟨_, _, strategy, pins, e⟩
  · cases e.symm.trans h; exact refuse_rom status s
  · exact (performRead_frame (e.symm.trans h)).2
  · cases e.symm.trans h; rfl

/-- Settles O31: by the kind of event; reset, the one event that writes all other state, keeps the table too. -/
theorem correctionTableNeverChanges : Obligations.CorrectionTableNeverChanges := by
  intro s t hs
  rcases step_cases s with ⟨_, e⟩ | ⟨w, rest, _, e⟩ | ⟨level, rest, _, e⟩ | ⟨rest, _, e⟩ | ⟨rest, _, e⟩
  · cases e.symm.trans hs; rfl
  · exact present_rom (s := { s with events := rest, response := none }) (e.symm.trans hs)
  · cases e.symm.trans hs
    exact acquirerTurn_rom level _
  · exact (decoderTurn_frame (e.symm.trans hs)).2
  · cases e.symm.trans hs
    exact applyReset_rom _

end Sys2Proof.Machine
end

section
/-! PROOFS. The obligations about the encoding (30_encoding.md rules R46, R49, R51 to R53, R57): what `decode` and
`encode` do with each format, the steps that run a decoded word, the responses a step can leave, and the fields of a
frame under the mask of rule R52. -/

namespace Sys2Proof.Machine

open Sys2Proof.Safety

/-! ### The `INITCMD` word -/

theorem pins_wf_iff (p : Pins) : p.wf = true ↔ p.cs < 256 ∧ p.sck < 256 ∧ p.data < 256 := by
  simp [Pins.wf, Config.pinIdBits, and_assoc]

/-- No bit of a well-formed instruction's operands is lost in the 25 bits of the word. -/
theorem toNat_encodeInitCmd (strategy : Strategy) {pins : Pins} (h : pins.wf = true) :
    (encodeInitCmd strategy pins).toNat =
      (strategyBit strategy).toNat + 2 * (pins.cs + 256 * (pins.sck + 256 * pins.data)) := by
  obtain ⟨hcs, hsck, hdata⟩ := (pins_wf_iff pins).1 h
  have hbit := Bool.toNat_lt (strategyBit strategy)
  rw [encodeInitCmd, BitVec.toNat_ofNat]
  exact Nat.mod_eq_of_lt (by simp only [Config.pinIdBits]; omega)

/-- The strategy's bit of the word, from the statement made per instruction. -/
theorem getLsbD_encodeInitCmd (strategy : Strategy) (pins : Pins) :
    (encodeInitCmd strategy pins).getLsbD 0 = strategyBit strategy := by
  obtain ⟨w, hw, hbit⟩ := Laws.EncodeInterface.init strategy pins
  cases hw
  exact hbit

@[simp] theorem strategyOfBit_strategyBit (strategy : Strategy) : strategyOfBit (strategyBit strategy) = strategy := by
  cases strategy <;> rfl

@[simp] theorem strategyBit_strategyOfBit (b : Bool) : strategyBit (strategyOfBit b) = b := by
  cases b <;> rfl

theorem decodeInitCmd_encodeInitCmd (strategy : Strategy) {pins : Pins} (h : pins.wf = true) :
    decodeInitCmd (encodeInitCmd strategy pins) = .init strategy pins := by
  obtain ⟨hcs, hsck, hdata⟩ := (pins_wf_iff pins).1 h
  have hpins : (encodeInitCmd strategy pins).toNat / 2 = pins.cs + 256 * (pins.sck + 256 * pins.data) := by
    have hbit := Bool.toNat_lt (strategyBit strategy)
    rw [toNat_encodeInitCmd strategy h]
    omega
  rw [decodeInitCmd, getLsbD_encodeInitCmd, strategyOfBit_strategyBit, hpins]
  congr 2 <;> simp only [Config.pinIdBits] <;> omega

/-- Every field of the word is read modulo its width, so what is decoded fits. -/
theorem decodeInitCmd_wf (w : InitCmd) : (decodeInitCmd w).wf = true :=
  (pins_wf_iff _).2 ⟨Nat.mod_lt _ (by decide), Nat.mod_lt _ (by decide), Nat.mod_lt _ (by decide)⟩

/-- The four fields cover the word: no bit of it is ignored. -/
theorem encode_decodeInitCmd (w : InitCmd) : encode (decodeInitCmd w) = .initCmd w := by
  refine congrArg HostWord.initCmd (BitVec.eq_of_toNat_eq ?_)
  rw [toNat_encodeInitCmd _ (decodeInitCmd_wf w), strategyBit_strategyOfBit]
  have hbit : (w.getLsbD 0).toNat = w.toNat % 2 := by
    rw [BitVec.getLsbD, Nat.testBit_zero]
    rcases Nat.mod_two_eq_zero_or_one w.toNat with h | h <;> simp [h]
  have hw : w.toNat < 2 ^ 25 := w.isLt
  simp only [hbit, Config.pinIdBits]
  omega

/-! ### The `CMD` word -/

/-- A code that selects an operation is that operation's code, and a read has no operand to check. -/
theorem encode_of_decodeCmd {w : Cmd} {i : Instr} (h : decodeCmd w = .ok i) : encode i = .cmd w ∧ i.wf = true := by
  unfold decodeCmd at h
  split at h <;> cases h
  all_goals next code => exact ⟨congrArg HostWord.cmd (BitVec.eq_of_toNat_eq code.symm), rfl⟩

/-! ### The steps that run a decoded word -/

theorem present_of_decode {w : HostWord} {i : Instr} (s : State) (h : decode w = .ok i) : present w s = exec i s := by
  simp only [present, h]

theorem decodeTableWord_eq_some {nbits w : Nat} {i : Instr} (h : decodeTableWord nbits w = some i) :
    decode (tableWord nbits w) = .ok i := by
  unfold decodeTableWord at h
  split at h
  · next hd => cases h; exact hd
  · cases h

/-! ### The responses a step can leave -/

/-- What holds of the states of an operation, and does not depend on what is to happen next, holds where its run
ends. -/
theorem runOperation_preserves {P : State → Prop} (hevents : ∀ s events, P s → P { s with events := events })
    (hturn : ∀ level s, P s → P (acquirerTurn level s)) (hdecoder : ∀ s t, P s → decoderTurn s = .next t → P t)
    {events : List Event} {s t : State} (hs : P s) (h : runOperation events s = .next t) : P t := by
  induction events generalizing s with
  | nil => cases h; exact hs
  | cons e rest ih =>
    cases e with
    | request w => cases h; exact hs
    | reset => cases h; exact hs
    | acquirerTurn level =>
      cases hp : s.poll with
      | none => simp only [runOperation, hp] at h; cases h; exact hs
      | some p =>
        rw [runOperation_turn level rest s p hp] at h
        exact ih (hturn level _ (hevents s rest hs)) h
    | decoderTurn =>
      cases hp : s.poll with
      | some p => simp only [runOperation, hp] at h; cases h; exact hs
      | none =>
        rw [runOperation_decoder rest s hp] at h
        exact hdecoder _ t (hevents s rest hs) h

/-- The response outputs, if they hold a refusal, hold no `RESULT` (30_encoding.md rule R51). -/
def RefusalIsBare (response : Option Response) : Prop :=
  ∀ r, response = some r → r.status ≠ .ok → r.result = none

theorem refusalIsBare_none : RefusalIsBare none := fun _ h => by cases h

theorem refusalIsBare_ok (result : Option (BitVec 64)) : RefusalIsBare (some { status := .ok, result := result }) := by
  intro r h hstatus
  cases h
  exact absurd rfl hstatus

theorem refusalIsBare_of_no_result (status : Status) : RefusalIsBare (some { status := status, result := none }) := by
  intro r h _
  cases h
  rfl

theorem decoderTurn_refusalIsBare {s t : State} (hs : RefusalIsBare s.response) (h : decoderTurn s = .next t) :
    RefusalIsBare t.response := by
  rcases decoderTurn_cases s with ⟨_, e⟩ | ⟨op, _, _, ⟨_, e⟩ | ⟨frame, _, e⟩⟩ <;> cases e.symm.trans h
  · exact hs
  · exact refusalIsBare_ok _

theorem performRead_refusalIsBare {op : ReadOp} {s t : State} (h : performRead op s = .next t) :
    RefusalIsBare t.response := by
  rcases performRead_cases op s with ⟨_, e⟩ | ⟨_, _, e⟩ | ⟨_, _, _, e⟩ | ⟨_, e⟩
  · cases e.symm.trans h; exact refusalIsBare_of_no_result _
  · cases e.symm.trans h; exact refusalIsBare_of_no_result _
  · cases e.symm.trans h
  · exact runOperation_preserves (P := fun s => RefusalIsBare s.response) (s := accepted s op)
      (fun _ _ hs => hs) (fun level s hs => by rwa [acquirerTurn_response])
      (fun _ _ hs ht => decoderTurn_refusalIsBare hs ht) refusalIsBare_none (e.symm.trans h)

theorem present_refusalIsBare {w : HostWord} {s t : State} (h : present w s = .next t) : RefusalIsBare t.response := by
  rcases present_cases w s with ⟨status, e⟩ | ⟨_, _, op, e⟩ | ⟨_, _, strategy, pins, e⟩
  · cases e.symm.trans h; exact refusalIsBare_of_no_result status
  · exact performRead_refusalIsBare (e.symm.trans h)
  · cases e.symm.trans h; exact refusalIsBare_ok none

/-! ### The fields of a frame under a mask -/

/-- A mask that keeps all bits of a field keeps the field. -/
theorem extractLsb_eq_of_and_eq {f g mask : Frame} {hi lo : Nat} (hmask : mask.extractLsb hi lo = BitVec.allOnes _)
    (h : f &&& mask = g &&& mask) : f.extractLsb hi lo = g.extractLsb hi lo := by
  have field (x : Frame) : (x &&& mask).extractLsb hi lo = x.extractLsb hi lo := by
    rw [BitVec.extractLsb_and, hmask, BitVec.and_allOnes]
  rw [← field f, h, field g]

theorem internalTempC_congr {f g : Frame} (h : f.extractLsb 15 4 = g.extractLsb 15 4) :
    internalTempC f = internalTempC g := by
  have hcj : cjField f = cjField g := by rw [← extract_cj, h, extract_cj]
  rw [internalTempC, internalTempC, coldJunction, coldJunction, hcj]

theorem faultCode_congr {f g : Frame} (h : f.extractLsb 2 0 = g.extractLsb 2 0) : faultCode f = faultCode g := by
  rw [← extract_fault, h, extract_fault]

theorem faulted_congr {f g : Frame} (h : f.extractLsb 2 0 = g.extractLsb 2 0) : faulted f = faulted g := by
  rw [faulted, faulted, faultCode_congr h]

theorem rawHotJunctionC_congr {f g : Frame} (hhj : f.extractLsb 31 18 = g.extractLsb 31 18)
    (hfault : f.extractLsb 2 0 = g.extractLsb 2 0) : rawHotJunctionC f = rawHotJunctionC g := by
  have hj : hjField f = hjField g := by rw [← extract_hj, hhj, extract_hj]
  rw [rawHotJunctionC, rawHotJunctionC, faulted_congr hfault, hotJunction, hotJunction, hj]

/-- The decoder reads the three fields of a frame and nothing else (30_encoding.md rule R46). -/
theorem decodeFrame_congr (exp : F64 → F64) (rom : Rom) {f g : Frame} (hhj : f.extractLsb 31 18 = g.extractLsb 31 18)
    (hcj : f.extractLsb 15 4 = g.extractLsb 15 4) (hfault : f.extractLsb 2 0 = g.extractLsb 2 0) :
    decodeFrame exp rom f = decodeFrame exp rom g := by
  rw [decodeFrame, decodeFrame, correctedHotJunctionC, correctedHotJunctionC, internalTempC_congr hcj,
    rawHotJunctionC_congr hhj hfault, faulted_congr hfault, faultCode_congr hfault]

/-! ### The obligations -/

/-- Settles O7: a read's code is decoded by computation; of `INIT` the operands come back out of the word's fields. -/
theorem decodeOfEncode : Obligations.DecodeOfEncode := by
  intro i h
  cases i with
  | rdint => rfl
  | rdcel => rfl
  | rdraw => rfl
  | rdfah => rfl
  | rdflt => rfl
  | init strategy pins => exact congrArg Except.ok (decodeInitCmd_encodeInitCmd strategy h)

/-- Settles O8: by the interface the word comes on. -/
theorem encodeOfDecode : Obligations.EncodeOfDecode := by
  intro w i h
  cases w with
  | cmd w => exact encode_of_decodeCmd h
  | initCmd w => cases h; exact ⟨encode_decodeInitCmd w, decodeInitCmd_wf w⟩

/-- Settles O28: by the kind of event; a presented word and the decoder's turn are the two that can respond. -/
theorem refusalCarriesNoResult : Obligations.RefusalCarriesNoResult := by
  intro s t hevents hs
  rcases step_cases s with ⟨he, _⟩ | ⟨w, rest, _, e⟩ | ⟨level, rest, _, e⟩ | ⟨rest, _, e⟩ | ⟨rest, _, e⟩
  · exact absurd he hevents
  · exact present_refusalIsBare (e.symm.trans hs)
  · cases e.symm.trans hs
    rw [acquirerTurn_response]
    exact refusalIsBare_none
  · exact decoderTurn_refusalIsBare (s := { s with events := rest, response := none }) refusalIsBare_none
      (e.symm.trans hs)
  · cases e.symm.trans hs
    exact refusalIsBare_none

/-- Settles O32: the mask keeps all bits of the three fields the decoder reads. -/
theorem ignoredFrameBitsHaveNoEffect : Obligations.IgnoredFrameBitsHaveNoEffect := by
  intro op exp rom f g h
  have reading (exp : F64 → F64) : decodeFrame exp rom f = decodeFrame exp rom g :=
    decodeFrame_congr exp rom (extractLsb_eq_of_and_eq (by decide) h) (extractLsb_eq_of_and_eq (by decide) h)
      (extractLsb_eq_of_and_eq (by decide) h)
  exact ⟨reading exp, by rw [resultOf, resultOf, reading]⟩

/-- Settles O3: a request is presented, and a word that decodes is executed. -/
theorem stepRunsTheDecodedInstruction : Obligations.StepRunsTheDecodedInstruction := by
  intro s w i rest hevents hdecode
  rw [step_request hevents, present_of_decode _ hdecode]

/-- Settles O4: a placed word is the next request, so O3 applies to it. -/
theorem placedWordIsRunNext : Obligations.PlacedWordIsRunNext := by
  intro s nbits w i h
  exact stepRunsTheDecodedInstruction _ _ i s.events (presentWord_events s nbits w) (decodeTableWord_eq_some h)

/-- Settles O6: each word of the tables, decoded by computation. -/
theorem tableWordsDecode : Obligations.TableWordsDecode :=
  ⟨rfl, rfl, rfl, rfl, rfl, rfl, rfl, rfl, rfl, rfl⟩

/-- Settles O9: the four codes written out. -/
theorem statusCodesAreAsTabled : Obligations.StatusCodesAreAsTabled := ⟨rfl, rfl, rfl, rfl⟩

end Sys2Proof.Machine
end

section
/-! PROOFS. The obligations about the Frame Acquirer (40_frame_acquire.md rules R60, R61, R64, R66, R67): what steps
keep, runs keep, so O27 is the invariant of 10_state.md rule R29 along a run and O19 the same for an operation whose
acquirer is withheld; O20 is a whole poll, one step per turn. -/

namespace Sys2Proof.Machine

open Sys2Proof.Safety

/-! ### Runs -/

theorem step_without_events {s : State} (h : s.events = []) : step s = .next s := by simp only [step, h]

/-- What no step stops on, and every step keeps, no run stops on, and every run keeps. -/
theorem run_preserves {P : State → Prop} (hstep : ∀ s, P s → ∃ t, step s = .next t ∧ P t) (n : Nat) {s : State}
    (hs : P s) : ∃ t, Host.Core.run Sys2Proof.core n s = .next t ∧ P t := by
  induction n generalizing s with
  | zero => exact ⟨s, run_zero s, hs⟩
  | succ n ih =>
    obtain ⟨u, hu, hPu⟩ := hstep s hs
    rw [run_next n hu]
    exact ih hPu

/-- The acquirer's turns one step at a time: the first of these steps withdraws an earlier response (log entry 5). -/
theorem run_turns (level : Bool) (levels : List Bool) (rest : List Event) (s : State)
    (he : s.events = turns (level :: levels) ++ rest) :
    Host.Core.run Sys2Proof.core (levels.length + 1) s =
      .next { afterTurns (level :: levels) s with events := rest, response := none } := by
  induction levels generalizing level s with
  | nil => rw [run_next _ (step_acquirerTurn he), acquirerTurn_with]; rfl
  | cons next levels ih =>
    rw [run_next _ (step_acquirerTurn he), acquirerTurn_with]
    exact (ih next _ rfl).trans (by rw [afterTurns_with, afterTurns_cons level])

/-! ### An operation whose acquirer is withheld -/

/-- `t` comes after `s` with only requests and decoder's turns between them and still to come: nothing but the response
outputs and the schedule has changed, and no new response is `OK` (40_frame_acquire.md rules R64 and R66). -/
structure Withheld (s t : State) : Prop where
  unchanged : t = { s with response := t.response, events := t.events }
  unanswered : ∀ r, t.response = some r → s.response = some r ∨ r.status ≠ .ok
  schedule : ∀ e ∈ t.events, (∃ w, e = .request w) ∨ e = .decoderTurn

theorem withheld_refl {s : State} (he : ∀ e ∈ s.events, (∃ w, e = .request w) ∨ e = .decoderTurn) : Withheld s s :=
  ⟨rfl, fun _ => .inl, he⟩

/-- While the poll is pending a request is refused as busy and a decoder's turn finds nothing to decode. -/
theorem withheld_step {s t : State} (hb : s.busy = true) (hp : s.poll.isSome = true) (h : Withheld s t) :
    ∃ u, step t = .next u ∧ Withheld s u := by
  obtain ⟨unchanged, unanswered, schedule⟩ := h
  have hbusy : t.busy = true := by rw [unchanged]; exact hb
  have hpoll : t.poll.isSome = true := by rw [unchanged]; exact hp
  cases he : t.events with
  | nil => exact ⟨t, step_without_events he, unchanged, unanswered, schedule⟩
  | cons e rest =>
    rw [he] at schedule
    obtain ⟨he', hrest⟩ := List.forall_mem_cons.1 schedule
    rcases he' with ⟨w, rfl⟩ | rfl
    · obtain ⟨status, hstatus, hpresent⟩ := present_busy w { t with events := rest, response := none } hbusy
      refine ⟨_, (step_request he).trans hpresent, by rw [unchanged]; rfl, fun r hr => .inr ?_, hrest⟩
      cases hr
      exact hstatus
    · obtain ⟨p, hp'⟩ := Option.isSome_iff_exists.1 hpoll
      exact ⟨_, (step_decoderTurn he).trans (decoderTurn_pending _ p hp'), by rw [unchanged],
        fun _ hr => (nomatch hr), hrest⟩

/-! ### The obligations -/

/-- Settles O19: by induction on the number of steps; `Withheld` is what each of them keeps. -/
theorem hungPollIsNeverAnswered : Obligations.HungPollIsNeverAnswered := by
  intro n s hb hp he
  obtain ⟨t, hrun, ht⟩ := run_preserves (P := Withheld s) (fun _ => withheld_step hb hp) n (withheld_refl he)
  refine ⟨t, hrun, ?_, ?_, ?_, ?_, ?_, ?_, ?_, ht.unanswered⟩ <;> rw [ht.unchanged]

/-- Settles O20: the 66 steps are the 66 turns, and those turns assemble the frame. -/
theorem frameReadAssemblesSampledBits : Obligations.FrameReadAssemblesSampledBits := by
  intro s op levels frame rest _ hp hc hk hd he
  have hpoll := afterTurns_delivers levels frame s hd ⟨hp, hc, hk⟩
  obtain ⟨hlength, _⟩ := hd
  cases levels with
  | nil => cases hlength
  | cons level levels =>
    have hrun := run_turns level levels rest s he
    rwa [← List.length_cons (a := level), hlength, hpoll] at hrun

/-- Settles O27: the invariant holds at reset with any table and any schedule, and every run keeps it. -/
theorem noReachableIdleStateHasChipSelectAsserted : Obligations.NoReachableIdleStateHasChipSelectAsserted := by
  intro n rom events
  have hreset : Inv { State.reset with rom := rom, events := events } :=
    inv_applyReset { State.reset with rom := rom, events := events }
  obtain ⟨t, hrun, ht⟩ := run_preserves (fun _ => inv_step) n hreset
  refine ⟨t, hrun, fun hb => ?_, ht.returned, ht.busyValid⟩
  obtain ⟨hcs, hsck, _⟩ := ht.idle hb
  exact ⟨hcs, hsck⟩

end Sys2Proof.Machine
end

section
/-! PROOFS. The obligations about the frame decoder (41_frame_decode.md rules R70 to R77). A temperature is an integer
operand times a weight `2 ^ -j`: such a product is itself a binary64 value, so the one rounding of `fmul` is exact. A
shift form of sign extension is the sign extension of the field's slice of the word. -/

namespace Sys2Proof.Machine

open Sys2Proof.Safety

/-! ### Exact products -/

/-- A magnitude of at most 53 significant bits is rounded to itself. -/
theorem roundMag_of_short {n k : Nat} (hn : n < 2 ^ 53) (hk : k ≤ 1074) :
    magOfBits (roundMag (n * 2 ^ k) 1) = n * 2 ^ k ∧ roundMag (n * 2 ^ k) 1 < 2047 * 2 ^ 52 := by
  have hunit : unitExp (n * 2 ^ k) 1 ≤ k := by
    rw [unitExp, Nat.div_one]
    split
    · exact Nat.zero_le k
    · next h =>
      have hlog : (n * 2 ^ k).log2 < 53 + k := (Nat.log2_lt (by omega)).2 <| by
        rw [Nat.pow_add]
        exact Nat.mul_lt_mul_of_pos_right hn (Nat.two_pow_pos k)
      omega
  have hdvd : 2 ^ unitExp (n * 2 ^ k) 1 ∣ n * 2 ^ k := Dvd.dvd.mul_left (pow_dvd_pow 2 hunit) n
  have hsig : roundedSig (n * 2 ^ k) 1 = n * 2 ^ k / 2 ^ unitExp (n * 2 ^ k) 1 := by
    have hpos := Nat.two_pow_pos (unitExp (n * 2 ^ k) 1)
    rw [roundedSig, Nat.one_mul, Nat.mod_eq_zero_of_dvd hdvd, if_neg (by omega)]
  have hfin : roundMag (n * 2 ^ k) 1 < 2047 * 2 ^ 52 := by
    have hrange := (roundedSig_range (n * 2 ^ k) 1).1
    rw [roundMag_eq]
    omega
  exact ⟨by rw [magOfBits_roundMag _ _ hfin, hsig, Nat.div_mul_cancel hdvd], hfin⟩

/-- The dyadic fractions `n / 2 ^ j` that are binary64 values. -/
theorem exists_finite_dyadic {n : Int} {j : Nat} (hn : n.natAbs < 2 ^ 53) (hj : j ≤ 1074) :
    ∃ c, isFinite c = true ∧ toRat c = n / 2 ^ j := by
  obtain ⟨hval, hfin⟩ := roundMag_of_short hn (Nat.sub_le 1074 j)
  have hlt := roundMag_lt (n.natAbs * 2 ^ (1074 - j)) 1
  refine ⟨pack (decide (n < 0)) (roundMag (n.natAbs * 2 ^ (1074 - j)) 1), (isFinite_iff _).2 ?_, ?_⟩
  · rwa [low_pack _ _ hlt]
  · have hscale : unitsPerOne = 2 ^ (1074 - j) * 2 ^ j := by rw [unitsPerOne, ← pow_add, Nat.sub_add_cancel hj]
    have hsplit : toRat (pack (decide (n < 0)) (roundMag (n.natAbs * 2 ^ (1074 - j)) 1)) =
        signedUnits (decide (n < 0)) n.natAbs * 2 ^ (1074 - j) := by
      rw [toRat_signedUnits, signBit_pack _ _ hlt, magUnits_pack _ _ hlt, hval, Nat.cast_mul, Nat.cast_pow,
        Nat.cast_ofNat, signedUnits, signedUnits]
      split <;> ring
    rw [hsplit, signedUnits_natAbs, hscale]
    field_simp

/-- What is a binary64 value is rounded to itself. -/
theorem roundsTo_exact {c r : F64} (hc : isFinite c = true) (h : RoundsTo (toRat c) r) :
    isFinite r = true ∧ toRat r = toRat c := by
  obtain ⟨hr, near⟩ := h.1 (toRat_lt_overflowLimit c hc)
  have hzero := (near c hc).1
  rw [sub_self, abs_zero, abs_nonpos_iff, sub_eq_zero] at hzero
  exact ⟨hr, hzero⟩

/-- An integer times a weight `2 ^ -j` is exact: both temperatures are formed so (41_frame_decode.md rules R71, R73). -/
theorem fmul_i2f_exact {n : Int} {c : F64} {j : Nat} (hn : n.natAbs < 2 ^ 53) (hj : j ≤ 1074)
    (hc : isFinite c = true) (hcv : toRat c = 1 / 2 ^ j) :
    isFinite (fmul (i2f n) c) = true ∧ toRat (fmul (i2f n) c) = n / 2 ^ j := by
  obtain ⟨hnfin, hnval⟩ := i2f_exact n hn
  obtain ⟨q, hq, hqv⟩ := exists_finite_dyadic hn hj
  have hround := (multiplyRoundsOnce (i2f n) c hnfin hc).1
  rw [hnval, hcv, mul_one_div, ← hqv] at hround
  rw [← hqv]
  exact roundsTo_exact hq hround

/-- The zero operand is not negative, so its product with a positive weight is `+0.0`. -/
theorem fmul_i2f_zero {c : F64} (hc : isFinite c = true) (hsign : signBit c = false) :
    fmul (i2f 0) c = 0x0000000000000000 := by
  have hzero : i2f 0 = pack false 0 := by rw [i2f, Int.natAbs_zero, Nat.zero_mul, roundMag_zero]; rfl
  have hmag : magUnits (pack false 0) = 0 := (magUnits_eq_zero_iff _).2 rfl
  rw [hzero, fmul_finite _ c rfl hc, hmag, Nat.zero_mul, roundMag_zero, hsign]
  rfl

/-! ### The weights and the operands -/

/-- A weight, from its magnitude in units of 2^-1074. -/
theorem toRat_of_magUnits_twoPow {c : F64} {k j : Nat} (hkj : k + j = 1074) (hsign : signBit c = false)
    (hmag : magUnits c = 2 ^ k) : toRat c = 1 / 2 ^ j := by
  have hscale : unitsPerOne = 2 ^ k * 2 ^ j := by rw [unitsPerOne, ← pow_add, hkj]
  rw [toRat_signedUnits, hsign, hmag, signedUnits, if_neg Bool.false_ne_true, hscale, Nat.cast_pow, Nat.cast_ofNat]
  field_simp

theorem toRat_cjLsb : toRat cjLsb = 1 / 2 ^ 4 :=
  toRat_of_magUnits_twoPow (k := 1070) rfl rfl (by decide +kernel)

theorem toRat_hjLsb : toRat hjLsb = 1 / 2 ^ 2 :=
  toRat_of_magUnits_twoPow (k := 1072) rfl rfl (by decide +kernel)

theorem coldJunction_eq_toInt (f : Frame) : coldJunction f = (f.extractLsb 15 4).toInt := by
  rw [coldJunction, ← extract_cj]
  exact sext_eq_toInt 12 (f.extractLsb 15 4)

theorem hotJunction_eq_toInt (f : Frame) : hotJunction f = (f.extractLsb 31 18).toInt := by
  rw [hotJunction, ← extract_hj]
  exact sext_eq_toInt 14 (f.extractLsb 31 18)

theorem coldJunction_range (f : Frame) : -2048 ≤ coldJunction f ∧ coldJunction f ≤ 2047 := by
  rw [coldJunction_eq_toInt]
  exact ⟨BitVec.le_toInt _, Int.le_of_lt_add_one (BitVec.toInt_lt)⟩

theorem hotJunction_range (f : Frame) : -8192 ≤ hotJunction f ∧ hotJunction f ≤ 8191 := by
  rw [hotJunction_eq_toInt]
  exact ⟨BitVec.le_toInt _, Int.le_of_lt_add_one (BitVec.toInt_lt)⟩

/-! ### The two temperatures -/

theorem internalTempC_exact (f : Frame) :
    isFinite (internalTempC f) = true ∧ toRat (internalTempC f) = coldJunction f / 16 := by
  obtain ⟨hlo, hhi⟩ := coldJunction_range f
  obtain ⟨hfin, hval⟩ := fmul_i2f_exact (n := coldJunction f) (by omega) (by decide) rfl toRat_cjLsb
  exact ⟨hfin, hval.trans (by norm_num)⟩

theorem rawHotJunctionC_exact {f : Frame} (h : faulted f = false) :
    isFinite (rawHotJunctionC f) = true ∧ toRat (rawHotJunctionC f) = hotJunction f / 4 := by
  obtain ⟨hlo, hhi⟩ := hotJunction_range f
  rw [rawHotJunctionC_sound f h]
  obtain ⟨hfin, hval⟩ := fmul_i2f_exact (n := hotJunction f) (by omega) (by decide) rfl toRat_hjLsb
  exact ⟨hfin, hval.trans (by norm_num)⟩

theorem faulted_iff (f : Frame) : faulted f = true ↔ f.extractLsb 2 0 ≠ 0 := by
  rw [faulted, bne_iff_ne, extract_fault]

theorem faulted_eq_false_iff (f : Frame) : faulted f = false ↔ f.extractLsb 2 0 = 0 := by
  rw [← Bool.not_eq_true, faulted_iff, not_not]

/-! ### Sign extension by shifts -/

/-- Shifting a field's sign bit to the top and back down fills with copies of it. -/
theorem shiftLeft_sshiftRight_eq_signExtend (w : BitVec 32) {N lo : Nat} (hN : 0 < N) (h : N + lo ≤ 32) :
    (w <<< (32 - N - lo)).sshiftRight (32 - N) = (w.extractLsb' lo N).signExtend 32 := by
  ext i hi
  rw [BitVec.getElem_sshiftRight, BitVec.getElem_signExtend]
  by_cases hi' : i < N
  · have hbit : lo + i < 32 := by omega
    rw [dif_pos (by omega), dif_pos hi', BitVec.getElem_shiftLeft, BitVec.getElem_extractLsb',
      BitVec.getLsbD_eq_getElem hbit, decide_eq_false (by omega), Bool.not_false, Bool.true_and]
    congr 1
    omega
  · rw [dif_neg (by omega), dif_neg hi', BitVec.msb_shiftLeft, BitVec.msb_extractLsb', decide_eq_true hN,
      decide_eq_true (by omega), Bool.true_and, Bool.true_and]
    congr 1
    omega

/-! ### The obligations -/

/-- Settles O33: each output is read off the fields named, and on a faulted frame two of them are `NAN_BITS`. -/
theorem outputsDependOnTheirFields : Obligations.OutputsDependOnTheirFields := by
  intro exp rom f g
  refine ⟨internalTempC_congr, faultCode_congr, rawHotJunctionC_congr, fun h => ?_⟩
  have hf := (faulted_iff f).2 h
  rw [rawHotJunctionC_faulted f hf, correctedHotJunctionC_faulted exp rom f hf]
  exact ⟨isNaN_nanBits, isNaN_nanBits⟩

/-- Settles O34: the temperature is the operand over 16, and the operand determines the field. -/
theorem internalTemperatureIsExact : Obligations.InternalTemperatureIsExact := by
  intro f g
  obtain ⟨hfin, hval⟩ := internalTempC_exact f
  obtain ⟨hlo, hhi⟩ := coldJunction_range f
  have hlo' : (-2048 : Rat) ≤ coldJunction f := by exact_mod_cast hlo
  have hhi' : (coldJunction f : Rat) ≤ 2047 := by exact_mod_cast hhi
  refine ⟨hfin, by rw [hval, coldJunction_eq_toInt], by rw [hval]; linarith, by rw [hval]; linarith, fun h => ?_,
    fun h => ?_⟩
  · rw [internalTempC, coldJunction_eq_toInt, h]
    exact fmul_i2f_zero rfl rfl
  · have hg := (internalTempC_exact g).2
    rw [← h, hval, div_left_inj' (by norm_num), Int.cast_inj, coldJunction_eq_toInt, coldJunction_eq_toInt] at hg
    exact BitVec.eq_of_toInt_eq hg

/-- Settles O35: without a fault the temperature is the operand over 4. -/
theorem rawTemperatureIsExact : Obligations.RawTemperatureIsExact := by
  intro f hfault
  have hf := (faulted_eq_false_iff f).2 hfault
  obtain ⟨hfin, hval⟩ := rawHotJunctionC_exact hf
  obtain ⟨hlo, hhi⟩ := hotJunction_range f
  have hlo' : (-8192 : Rat) ≤ hotJunction f := by exact_mod_cast hlo
  have hhi' : (hotJunction f : Rat) ≤ 8191 := by exact_mod_cast hhi
  refine ⟨hfin, by rw [hval, hotJunction_eq_toInt], by rw [hval]; linarith, by rw [hval]; linarith, fun h => ?_⟩
  rw [rawHotJunctionC_sound f hf, hotJunction_eq_toInt, h]
  exact fmul_i2f_zero rfl rfl

/-- Settles O36: both shift forms are the sign extension of the field's slice; a set sign bit makes the field nonzero,
so its negation is not reduced by the mask. -/
theorem signExtensionFormsAgree : Obligations.SignExtensionFormsAgree := by
  have shifts (w : BitVec 32) (N lo : Nat) (hN : 0 < N) (h : N + lo ≤ 32) :
      sext N (w.toNat / 2 ^ lo % 2 ^ N) = ((w <<< (32 - N - lo)).sshiftRight (32 - N)).toInt := by
    rw [shiftLeft_sshiftRight_eq_signExtend w hN h, BitVec.toInt_signExtend_of_le (by omega), ← sext_eq_toInt,
      BitVec.extractLsb'_toNat, Nat.shiftRight_eq_div_pow]
  refine ⟨shifts, fun f => ⟨?_, shifts f 12 4 (by decide) (by decide)⟩, fun N v hN hv hsign => ?_⟩
  · have := shifts f 14 18 (by decide) (by decide)
    rwa [BitVec.shiftLeft_zero] at this
  · have hpos : 0 < v := lt_of_lt_of_le (Nat.two_pow_pos (N - 1)) (Nat.ge_two_pow_of_testBit hsign)
    have hneg : 2 ^ N - 1 - v + 1 = 2 ^ N - v := by omega
    rw [sext, if_pos hsign, hneg, Nat.mod_eq_of_lt (by omega), Nat.cast_sub hv.le, neg_sub, Nat.cast_pow,
      Nat.cast_ofNat]

end Sys2Proof.Machine
end

section
/-! PROOFS. The obligations about the linearization (42_linearization.md rules R85 to R103): the selection of the inverse
set, the power series by its last term, and how large a value can get. A bound by a power of two passes through every
operation (`Within`): no series has more than eleven terms, so crude bounds show each result finite. -/

namespace Sys2Proof.Machine

open Sys2Proof.Safety

/-! ### The selection of the sets -/

theorem toRat_zero : toRat zero = 0 := (toRat_eq_zero_iff zero).2 rfl

theorem flt_iff_toRat_lt {a b : F64} (ha : isFinite a = true) (hb : isFinite b = true) :
    flt a b = true ↔ toRat a < toRat b := ((comparisonsOrderValues a b).1 ha hb).1

theorem fge_iff_toRat_le {a b : F64} (ha : isFinite a = true) (hb : isFinite b = true) :
    fge a b = true ↔ toRat b ≤ toRat a := ((comparisonsOrderValues a b).1 ha hb).2

theorem invSelect_finite {v : F64} (h : isFinite v = true) :
    invSelect v =
      if toRat v < 0 then .neg else if toRat v < toRat vMid then .mid else if toRat v < toRat vMax then .high
      else .none := by
  have hmid : isFinite vMid = true := rfl
  have hmax : isFinite vMax = true := rfl
  simp only [invSelect, flt_iff_toRat_lt h (b := zero) rfl, flt_iff_toRat_lt h hmid, flt_iff_toRat_lt h hmax,
    toRat_zero]

theorem invSelect_infinity (neg : Bool) : invSelect (infinity neg) = if neg then .neg else .none := by
  cases neg <;> decide

theorem invSelect_of_isNaN {v : F64} (h : isNaN v = true) : invSelect v = .none := by simp [invSelect, flt, h]

theorem inverse_finite (rom : Rom) {v : F64} (h : isFinite v = true) :
    inverse rom v =
      if toRat v < 0 then powerSeries rom.invNeg.toList v
      else if toRat v < toRat vMid then powerSeries rom.invMid.toList v
      else if toRat v < toRat vMax then powerSeries rom.invHigh.toList v
      else nanBits := by
  rw [inverse, invSelect_finite h]
  split_ifs
  · exact invNeg.eq_def rom v
  · exact invMid.eq_def rom v
  · exact invHigh.eq_def rom v
  · rfl

theorem coldJunctionVoltage_finite (exp : F64 → F64) (rom : Rom) {ti : F64} (h : isFinite ti = true) :
    coldJunctionVoltage exp rom ti = if 0 ≤ toRat ti then fwdPos exp rom ti else fwdNeg rom ti := by
  simp only [coldJunctionVoltage, fge_iff_toRat_le h (b := zero) rfl, toRat_zero]

/-! ### The power series by its last term -/

theorem seriesFrom_concat (last x : F64) (c : List F64) (n : Nat) (acc : F64) :
    seriesFrom x (c ++ [last]) (power x n) acc =
      fadd (seriesFrom x c (power x n) acc) (fmul last (power x (n + c.length))) := by
  induction c generalizing n acc with
  | nil => rfl
  | cons a c ih =>
    rw [List.cons_append, seriesFrom, seriesFrom, List.length_cons, ← Nat.add_assoc, Nat.add_right_comm, ← power]
    exact ih (n + 1) _

theorem powerSeries_concat (c : List F64) (last x : F64) :
    powerSeries (c ++ [last]) x = fadd (powerSeries c x) (fmul last (power x c.length)) := by
  have h := seriesFrom_concat last x c 0 zero
  rwa [Nat.zero_add] at h

/-! ### A zero term -/

theorem roundMag_ne_zero {n : Nat} (hn : n ≠ 0) : roundMag n 1 ≠ 0 := by
  intro h
  have near := (roundMag_nearest n 1 one_pos (by rw [h]; norm_num) 1).1
  have h1 : magOfBits 1 = 1 := rfl
  have h0 : magOfBits 0 = 0 := rfl
  have hn' : (1 : Rat) ≤ n := by exact_mod_cast Nat.one_le_iff_ne_zero.2 hn
  rw [h, h0, h1, Nat.cast_one, Nat.cast_zero, div_one, zero_sub, abs_neg, abs_of_nonneg (by linarith),
    abs_of_nonpos (by linarith)] at near
  linarith

theorem intUnits_eq_zero_iff (a : F64) : intUnits a = 0 ↔ isZero a = true := by
  rw [← magUnits_eq_zero_iff, intUnits]
  split <;> omega

/-- A zero is known by its sign. -/
theorem eq_pack_zero_of_isZero {a : F64} (h : isZero a = true) : a = pack (signBit a) 0 := by
  simp only [isZero, Bool.and_eq_true, beq_iff_eq, expField_eq, fracField_eq] at h
  rw [← show a.toNat % 2 ^ 63 = 0 by omega, pack_self]

theorem isNaN_of_fadd {a b : F64} (h : isNaN (fadd a b) = false) : isNaN a = false ∧ isNaN b = false := by
  constructor <;> by_contra hc <;> rw [Bool.not_eq_false] at hc
  · rw [isNaN_fadd a b (.inl hc)] at h
    cases h
  · rw [isNaN_fadd a b (.inr hc)] at h
    cases h

/-- No sum with an infinite operand or a NaN is finite. -/
theorem isFinite_of_fadd {a b : F64} (h : isFinite (fadd a b) = true) : isFinite a = true ∧ isFinite b = true := by
  obtain ⟨ha, hb⟩ := isNaN_of_fadd (isNaN_false_of_finite _ h)
  have hn := isNaN_false_of_finite _ h
  have hi := isInf_false_of_finite _ h
  have hia : isInf a = false := by
    by_contra hc
    simp only [fadd, ha, hb, Bool.eq_true_of_not_eq_false hc, Bool.or_false, Bool.false_eq_true, if_false, if_true]
      at hn hi
    split at hn
    · simp at hn
    · next hs =>
      rw [if_neg hs] at hi
      exact hc hi
  have hib : isInf b = false := by
    by_contra hc
    simp [fadd, ha, hb, hia, Bool.eq_true_of_not_eq_false hc] at hi
  have ha' := value_cases a
  have hb' := value_cases b
  simp only [ha, hb, hia, hib, Bool.false_eq_true, false_or, or_false] at ha' hb'
  exact ⟨ha', hb'⟩

/-- A sum is `-0.0` only where its operands are (42_linearization.md rule R101): rounding a sum never underflows. -/
theorem eq_negZero_of_fadd {a b : F64} (h : fadd a b = pack true 0) : a = pack true 0 := by
  obtain ⟨ha, hb⟩ := isFinite_of_fadd (a := a) (b := b) (by rw [h]; rfl)
  rw [fadd_finite a b ha hb] at h
  split at h
  · next hs =>
    have hsign := congrArg signBit h
    rw [signBit_pack _ _ (by norm_num), signBit_pack _ _ (by norm_num), Bool.and_eq_true] at hsign
    obtain ⟨hsa, hsb⟩ := hsign
    rw [intUnits, intUnits, if_pos hsa, if_pos hsb] at hs
    rw [← hsa]
    exact eq_pack_zero_of_isZero ((magUnits_eq_zero_iff a).1 (by omega))
  · next hs =>
    have hlow := congrArg (fun r => r.toNat % 2 ^ 63) h
    simp only [low_pack _ _ (roundMag_lt _ _)] at hlow
    exact absurd hlow (roundMag_ne_zero (Int.natAbs_ne_zero.2 hs))

theorem powerSeries_ne_negZero (c : List F64) (x : F64) : powerSeries c x ≠ pack true 0 := by
  induction c using List.reverseRecOn with
  | nil => exact (by decide : zero ≠ pack true 0)
  | append_singleton c last ih =>
    rw [powerSeries_concat]
    exact fun h => ih (eq_negZero_of_fadd h)

/-- The rounding of a finite value's own units gives it back. -/
theorem pack_intUnits {a : F64} (ha : isFinite a = true) (h : intUnits a ≠ 0) :
    pack (decide (intUnits a < 0)) (roundMag (intUnits a).natAbs 1) = a := by
  have hmag : (intUnits a).natAbs = magUnits a := by rw [intUnits]; split <;> omega
  have hsign : decide (intUnits a < 0) = signBit a := by
    rw [intUnits] at h ⊢
    cases signBit a <;> simp only [if_true, Bool.false_eq_true, if_false] at h ⊢ <;>
      simp only [decide_eq_true_eq, decide_eq_false_iff_not] <;> omega
  rw [hsign, hmag, magUnits_eq, roundMag_self _ ((isFinite_iff a).1 ha), pack_self]

theorem fadd_isZero {a z : F64} (ha : isNaN a = false) (hneg : a ≠ pack true 0) (hz : isZero z = true) :
    fadd a z = a := by
  have hzfin : isFinite z = true := by
    rw [eq_pack_zero_of_isZero hz]; cases signBit z <;> rfl
  rcases value_cases a with h | h | h
  · rw [h] at ha; cases ha
  · rw [fadd_finite a z h hzfin, (intUnits_eq_zero_iff z).2 hz, add_zero]
    split
    · next h0 =>
      have haz := eq_pack_zero_of_isZero ((intUnits_eq_zero_iff a).1 h0)
      have hsign : signBit a = false := by
        by_contra hc
        rw [Bool.not_eq_false] at hc
        rw [hc] at haz
        exact hneg haz
      rw [hsign] at haz ⊢
      exact haz.symm
    · next h0 => exact pack_intUnits h h0
  · rw [infinity_of_isInf a h, fadd_infinity_finite _ z hzfin]

theorem isZero_fmul_zero {p : F64} (hp : isFinite p = true) : isZero (fmul zero p) = true := by
  have hmag : magUnits zero = 0 := (magUnits_eq_zero_iff zero).2 rfl
  rw [fmul_finite zero p rfl hp, hmag, Nat.zero_mul, roundMag_zero]
  cases signBit zero != signBit p <;> rfl

/-! ### Bounds by powers of two -/

/-- A finite value of magnitude at most `2 ^ k`. -/
def Within (k : ℤ) (a : F64) : Prop := isFinite a = true ∧ |toRat a| ≤ 2 ^ k

theorem abs_toRat (a : F64) : |toRat a| = magOfBits (a.toNat % 2 ^ 63) / unitsPerOne := by
  have hmag : |(magUnits a : Rat)| = magUnits a := abs_of_nonneg (Nat.cast_nonneg _)
  rw [toRat_eq, ← magUnits_eq, abs_div, abs_of_pos unitsPerOne_pos]
  split
  · rw [abs_neg, hmag]
  · rw [hmag]

/-- The bits without sign of `2 ^ k`: the biased exponent `k + 1023` and no fraction. -/
theorem magOfBits_twoPow {k : ℤ} (h : -1022 ≤ k) :
    (magOfBits ((k + 1023).toNat * 2 ^ 52) : Rat) = 2 ^ k * unitsPerOne := by
  obtain ⟨u, hu⟩ : ∃ u : Nat, k = u - 1022 := ⟨(k + 1022).toNat, by omega⟩
  have hbits : (k + 1023).toNat * 2 ^ 52 = u * 2 ^ 52 + 2 ^ 52 := by omega
  rw [hbits, magOfBits_scaled u (2 ^ 52) (by norm_num) (.inr le_rfl), unitsPerOne, ← zpow_natCast (2 : Rat) 1074,
    ← zpow_add₀ two_ne_zero, hu, ← Nat.pow_add, Nat.cast_pow, Nat.cast_ofNat, ← zpow_natCast]
  congr 1
  push_cast
  ring

/-- The bound read off the bits. -/
theorem within_iff {k : ℤ} (hlo : -1022 ≤ k) (hhi : k ≤ 1023) (a : F64) :
    Within k a ↔ a.toNat % 2 ^ 63 ≤ (k + 1023).toNat * 2 ^ 52 := by
  have hmag := magOfBits_lt ((k + 1023).toNat * 2 ^ 52) (a.toNat % 2 ^ 63)
  rw [Within, isFinite_iff, abs_toRat, div_le_iff₀ unitsPerOne_pos, ← magOfBits_twoPow hlo, Nat.cast_le]
  omega

theorem within_mono {j k : ℤ} {a : F64} (h : Within j a) (hjk : j ≤ k) : Within k a :=
  ⟨h.1, h.2.trans (zpow_le_zpow_right₀ one_le_two hjk)⟩

theorem exists_toRat_eq_twoPow {k : ℤ} (hlo : -1022 ≤ k) (hhi : k ≤ 1023) :
    ∃ c, isFinite c = true ∧ toRat c = 2 ^ k := by
  have hb : (k + 1023).toNat * 2 ^ 52 < 2 ^ 63 := by omega
  refine ⟨pack false ((k + 1023).toNat * 2 ^ 52), (isFinite_iff _).2 (by rw [low_pack _ _ hb]; omega), ?_⟩
  rw [toRat_pack _ _ hb, magOfBits_twoPow hlo, if_neg Bool.false_ne_true, mul_div_cancel_right₀ _ unitsPerOne_pos.ne']

/-- A power of two is itself a binary64 value, so one rounding does not pass it. -/
theorem within_of_roundsTo {x : Rat} {r : F64} {k : ℤ} (h : RoundsTo x r) (hx : |x| ≤ 2 ^ k) (hlo : -1022 ≤ k)
    (hhi : k ≤ 1023) : Within k r := by
  obtain ⟨c, hc, hval⟩ := exists_toRat_eq_twoPow hlo hhi
  rw [← hval] at hx
  rw [Within, ← hval]
  exact roundsTo_bound h c hc hx

theorem within_fmul {i j : ℤ} {a b : F64} (ha : Within i a) (hb : Within j b) (hlo : -1022 ≤ i + j)
    (hhi : i + j ≤ 1023) : Within (i + j) (fmul a b) := by
  refine within_of_roundsTo (multiplyRoundsOnce a b ha.1 hb.1).1 ?_ hlo hhi
  rw [abs_mul, zpow_add₀ two_ne_zero]
  exact mul_le_mul ha.2 hb.2 (abs_nonneg _) (by positivity)

theorem within_fadd {k : ℤ} {a b : F64} (ha : Within k a) (hb : Within k b) (hlo : -1022 ≤ k) (hhi : k < 1023) :
    Within (k + 1) (fadd a b) := by
  refine within_of_roundsTo (roundsTo_fadd a b ha.1 hb.1) ?_ (by omega) hhi
  rw [zpow_add_one₀ two_ne_zero, mul_two]
  exact (abs_add_le _ _).trans (add_le_add ha.2 hb.2)

theorem within_fneg {k : ℤ} {a : F64} (h : Within k a) : Within k (fneg a) :=
  ⟨fneg_finite a h.1, by rw [toRat_fneg, abs_neg]; exact h.2⟩

theorem within_fsub {k : ℤ} {a b : F64} (ha : Within k a) (hb : Within k b) (hlo : -1022 ≤ k) (hhi : k < 1023) :
    Within (k + 1) (fsub a b) := within_fadd ha (within_fneg hb) hlo hhi

/-- Each step of the series may double the sum; every term is within the bound it starts from. -/
theorem seriesFrom_within {x : F64} {m k : ℤ} (hm : 0 ≤ m) (hk : 0 ≤ k) (hx : Within k x) {c : List F64} {p acc : F64}
    {j q : ℤ} (hc : ∀ a ∈ c, Within m a) (hp : Within j p) (hacc : Within q acc) (hj : 0 ≤ j)
    (hterm : m + j + k * c.length ≤ q) (hq : q + c.length ≤ 1023) : Within (q + c.length) (seriesFrom x c p acc) := by
  induction c generalizing p acc j q with
  | nil => simpa [seriesFrom] using hacc
  | cons a c ih =>
    have hlen : 0 ≤ k * (c.length : ℤ) := by positivity
    rw [List.length_cons, Nat.cast_succ] at hterm hq ⊢
    rw [mul_add, mul_one] at hterm
    have hsum : Within (q + 1) (fadd acc (fmul a p)) :=
      within_fadd hacc (within_mono (within_fmul (hc a List.mem_cons_self) hp (by omega) (by omega)) (by omega))
        (by omega) (by omega)
    have hrest := ih (fun b hb => hc b (List.mem_cons_of_mem a hb)) (within_fmul hp hx (by omega) (by omega)) hsum
      (by omega) (by omega) (by omega)
    rwa [add_right_comm, add_assoc] at hrest

theorem powerSeries_within {x : F64} {m k : ℤ} {c : List F64} (hm : 0 ≤ m) (hk : 0 ≤ k) (hx : Within k x)
    (hc : ∀ a ∈ c, Within m a) (hq : m + k * c.length + c.length ≤ 1023) :
    Within (m + k * c.length + c.length) (powerSeries c x) := by
  have hone : Within 0 one := (within_iff (by omega) (by omega) one).2 (by decide)
  have hzero : Within 0 zero := (within_iff (by omega) (by omega) zero).2 (by decide)
  exact seriesFrom_within hm hk hx hc hone (within_mono hzero (by positivity)) le_rfl (by omega) hq

/-! ### The default CorrectionTable (PRESUMED, log entry 6) -/

/-- The bound of all coefficients of a list, read off their bits. -/
theorem within_of_all {k : ℤ} (hlo : -1022 ≤ k) (hhi : k ≤ 1023) {c : List F64}
    (h : c.all (fun a => decide (a.toNat % 2 ^ 63 ≤ (k + 1023).toNat * 2 ^ 52)) = true) : ∀ a ∈ c, Within k a :=
  fun a ha => (within_iff hlo hhi a).2 (of_decide_eq_true (List.all_eq_true.1 h a ha))

theorem forwardCoefficients_within : ∀ a ∈ Rom.default.fwdPos.toList ++ Rom.default.fwdNeg.toList, Within 0 a :=
  within_of_all (by decide) (by decide) (by decide)

theorem inverseCoefficients_within :
    ∀ a ∈ Rom.default.invNeg.toList ++ Rom.default.invMid.toList ++ Rom.default.invHigh.toList, Within 8 a :=
  within_of_all (by decide) (by decide) (by decide)

/-! ### The Gaussian term -/

theorem toRat_nonneg_of_signBit {a : F64} (h : signBit a = false) : 0 ≤ toRat a := by
  rw [toRat_eq, h, if_neg Bool.false_ne_true]
  exact div_nonneg (Nat.cast_nonneg _) unitsPerOne_pos.le

theorem toRat_nonpos_of_signBit {a : F64} (h : signBit a = true) : toRat a ≤ 0 := by
  rw [toRat_eq, if_pos h]
  exact div_nonpos_of_nonpos_of_nonneg (neg_nonpos.2 (Nat.cast_nonneg _)) unitsPerOne_pos.le

/-- The centre of the Gaussian lies among the temperatures, so their distance is not doubled. -/
theorem gaussArgument_range {ti : F64} (h : Within 7 ti) (h0 : 0 ≤ toRat ti) :
    isFinite (gaussArgument Rom.default ti) = true ∧ -2 ≤ toRat (gaussArgument Rom.default ti) ∧
      toRat (gaussArgument Rom.default ti) ≤ 0 := by
  have hcentre : Within 7 Rom.default.gauss[2] := (within_iff (by omega) (by omega) _).2 (by decide)
  have hcentre0 : 0 ≤ toRat Rom.default.gauss[2] := toRat_nonneg_of_signBit (by decide)
  have hfactor : Within (-13) Rom.default.gauss[1] := (within_iff (by omega) (by omega) _).2 (by decide)
  have hdist : Within 7 (fsub ti Rom.default.gauss[2]) := by
    refine within_of_roundsTo (addAndSubtractRoundOnce ti _ h.1 hcentre.1).2.1 ?_ (by omega) (by omega)
    exact abs_sub_le_of_nonneg_of_le h0 ((le_abs_self _).trans h.2) hcentre0 ((le_abs_self _).trans hcentre.2)
  have hsquare := within_fmul hdist hdist (by omega) (by omega)
  have hsquareSign := (multiplyRoundsOnce _ _ hdist.1 hdist.1).2
  obtain ⟨hfin, habs⟩ := within_fmul hfactor hsquare (by omega) (by omega)
  have hsign := (multiplyRoundsOnce _ _ hfactor.1 hsquare.1).2
  rw [hsquareSign, bne_self_eq_false, show signBit Rom.default.gauss[1] = true by decide] at hsign
  norm_num at habs
  exact ⟨hfin, (abs_le.1 habs).1, toRat_nonpos_of_signBit hsign⟩

/-- Two units in the last place are within the magnitude of a normal value; those of a subnormal one are below 2. -/
theorem two_mul_ulp_le (a : F64) : 2 * ulp a ≤ |toRat a| + 2 := by
  have hone : 1 ≤ unitsPerOne := by rw [unitsPerOne]; exact one_le_pow₀ one_le_two
  have hmag : 2 * 2 ^ (expField a - 1) ≤ magUnits a + 2 := by
    rw [magUnits]
    split
    · next h => rw [h]; omega
    · exact (Nat.mul_le_mul_right _ (by omega)).trans (Nat.le_add_right _ 2)
  have hmag' : (2 : Rat) * 2 ^ (expField a - 1) ≤ magUnits a + 2 := by exact_mod_cast hmag
  rw [abs_toRat, ← magUnits_eq, ulp, ← mul_div_assoc, div_add' _ _ _ unitsPerOne_pos.ne',
    div_le_div_iff_of_pos_right unitsPerOne_pos]
  linarith

/-- An admissible exponential is at most 1 but for its error, which is at most half its value and 1 more. -/
theorem expAdmissible_within {exp : F64 → F64} (hexp : ExpAdmissible exp) {x : F64} (hx : isFinite x = true)
    (hlo : -2 ≤ toRat x) (hhi : toRat x ≤ 0) : Within 2 (exp x) := by
  obtain ⟨hfin, herr⟩ := hexp.1 x hx hlo hhi
  refine ⟨hfin, ?_⟩
  have hulp : 2 * (ulp (exp x) : ℝ) ≤ |(toRat (exp x) : ℝ)| + 2 := by exact_mod_cast two_mul_ulp_le (exp x)
  have hone : Real.exp (toRat x : ℝ) ≤ 1 := Real.exp_le_one_iff.2 (by exact_mod_cast hhi)
  have hpos := Real.exp_pos (toRat x : ℝ)
  have hdist := abs_sub_abs_le_abs_sub (toRat (exp x) : ℝ) (Real.exp (toRat x : ℝ))
  rw [abs_of_pos hpos] at hdist
  have hbound : |(toRat (exp x) : ℝ)| ≤ 4 := by linarith
  norm_num
  exact_mod_cast hbound

/-! ### The voltages and the temperatures -/

theorem internalTempC_within (f : Frame) : Within 7 (internalTempC f) := by
  obtain ⟨hfin, -, hlo, hhi, -⟩ := internalTemperatureIsExact f f
  exact ⟨hfin, abs_le.2 ⟨by norm_num; exact hlo, hhi.trans (by norm_num)⟩⟩

theorem rawHotJunctionC_within {f : Frame} (h : f.extractLsb 2 0 = 0) : Within 11 (rawHotJunctionC f) := by
  obtain ⟨hfin, -, hlo, hhi, -⟩ := rawTemperatureIsExact f h
  exact ⟨hfin, abs_le.2 ⟨by norm_num; exact hlo, hhi.trans (by norm_num)⟩⟩

theorem coldJunctionVoltage_within {exp : F64 → F64} (hexp : ExpAdmissible exp) {ti : F64} (h : Within 7 ti) :
    Within 88 (coldJunctionVoltage exp Rom.default ti) := by
  rw [coldJunctionVoltage_finite exp _ h.1]
  split
  · next h0 =>
    obtain ⟨hfin, hlo, hhi⟩ := gaussArgument_range h h0
    have hfactor : Within 0 Rom.default.gauss[0] := (within_iff (by omega) (by omega) _).2 (by decide)
    have hgauss := within_fmul hfactor (expAdmissible_within hexp hfin hlo hhi) (by omega) (by omega)
    have hseries := powerSeries_within le_rfl (by omega) h
      (fun a ha => forwardCoefficients_within a (List.mem_append_left _ ha)) (by decide)
    exact within_mono (within_fadd hseries (within_mono hgauss (by decide)) (by decide) (by decide)) (by decide)
  · exact powerSeries_within le_rfl (by omega) h
      (fun a ha => forwardCoefficients_within a (List.mem_append_right _ ha)) (by decide)

theorem totalVoltage_within {exp : F64 → F64} (hexp : ExpAdmissible exp) {ti tr : F64} (hti : Within 7 ti)
    (htr : Within 11 tr) : Within 89 (totalVoltage exp Rom.default ti tr) := by
  have hkLin : Within 0 kLin := (within_iff (by omega) (by omega) _).2 (by decide)
  have hdiff := within_fsub htr (within_mono hti (by omega)) (by omega) (by omega)
  have hthermo := within_fmul hdiff hkLin (by omega) (by omega)
  exact within_fadd (within_mono hthermo (by omega)) (coldJunctionVoltage_within hexp hti) (by omega) (by omega)

theorem isFinite_inverse {v : F64} (hv : Within 89 v) (hlt : toRat v < toRat vMax) :
    isFinite (inverse Rom.default v) = true := by
  have hseries {c : List F64} (hlen : c.length = 10) (hc : ∀ a ∈ c, Within 8 a) :
      isFinite (powerSeries c v) = true :=
    (powerSeries_within (by omega) (by omega) hv hc (by rw [hlen]; decide)).1
  have hcoef := inverseCoefficients_within
  simp only [List.mem_append, or_imp, forall_and] at hcoef
  obtain ⟨⟨hneg, hmid⟩, hhigh⟩ := hcoef
  rw [inverse_finite _ hv.1, if_pos hlt]
  split
  · exact hseries rfl hneg
  · split
    · exact hseries rfl hmid
    · exact hseries rfl hhigh

theorem inverse_of_vMax_le (rom : Rom) {v : F64} (h : isFinite v = true) (hle : toRat vMax ≤ toRat v) :
    inverse rom v = nanBits := by
  have hmid : toRat vMid < toRat vMax := (flt_iff_toRat_lt rfl rfl).1 (by decide)
  have hzero : 0 ≤ toRat vMid := toRat_nonneg_of_signBit (by decide)
  rw [inverse_finite rom h, if_neg (by linarith), if_neg (by linarith), if_neg (by linarith)]

/-! ### The obligations -/

/-- Settles O43: by the kind of voltage; the tests compare a finite one as a number, and every test is false on a NaN. -/
theorem inverseSetIsSelectedByVoltage : Obligations.InverseSetIsSelectedByVoltage := fun _ =>
  ⟨invSelect_finite, invSelect_infinity true, invSelect_infinity false, invSelect_of_isNaN⟩

/-- Settles O53: `Inverse` is the series of the set O43 selects. -/
theorem inverseEvaluatesTheSelectedSeries : Obligations.InverseEvaluatesTheSelectedSeries := by
  intro rom v
  refine ⟨inverse_finite rom, ?_, ?_, fun h => ?_⟩
  · rw [inverse, invSelect_infinity true]
    exact invNeg.eq_def rom _
  · rw [inverse, invSelect_infinity false]
    rfl
  · rw [inverse, invSelect_of_isNaN h]

/-- Settles O54: the forward set's test compares numbers; the rest is the definitions of the steps. -/
theorem linearizationFollowsItsSteps : Obligations.LinearizationFollowsItsSteps := by
  intro exp rom ti tr hti
  refine ⟨?_, by rw [totalVoltage, thermocoupleVoltage], by rw [linearize]⟩
  rw [coldJunctionVoltage_finite exp rom hti, fwdPos, fwdNeg, gauss, gaussArgument]

/-- Settles O45: the last term of a series is added last. -/
theorem seriesAddsTermsInOrder : Obligations.SeriesAddsTermsInOrder :=
  ⟨fun _ => ⟨rfl, rfl⟩, fun c last x => ⟨rfl, powerSeries_concat c last x⟩⟩

/-- Settles O44: the term is a zero, and a sum begun at `+0.0` is never `-0.0`, so adding a zero keeps its bits. -/
theorem trailingZeroCoefficientIsIdle : Obligations.TrailingZeroCoefficientIsIdle := by
  intro c x hpower hnan
  rw [powerSeries_concat]
  exact fadd_isZero hnan (powerSeries_ne_negZero c x) (isZero_fmul_zero hpower)

/-- Settles O50: every internal temperature is below 128 degrees in magnitude. -/
theorem gaussArgumentIsInRange : Obligations.GaussArgumentIsInRange := fun f h =>
  gaussArgument_range (internalTempC_within f) h

/-- Settles O51: the total voltage is bounded, so below `V_MAX` the selected series is finite. -/
theorem linearizationIsFiniteBelowTheLimit : Obligations.LinearizationIsFiniteBelowTheLimit := by
  intro exp hexp f hfault
  have hf := (faulted_eq_false_iff f).2 hfault
  have hv := totalVoltage_within hexp (internalTempC_within f) (rawHotJunctionC_within hfault)
  have hbelow := isFinite_inverse hv
  rw [correctedHotJunctionC_sound exp _ f hf, linearize]
  refine ⟨hv.1, ⟨fun h => ?_, fun h => ?_⟩, hbelow⟩
  · by_contra hc
    rw [isNaN_false_of_finite _ (hbelow (not_le.1 hc))] at h
    cases h
  · rw [inverse_of_vMax_le _ hv.1 h]
    exact isNaN_nanBits

/-- Settles O52: each step of the scenario, the exponential taken at its one argument. -/
theorem scenarioAtHundredDegrees : Obligations.ScenarioAtHundredDegrees := by
  intro exp hexp
  have hti : internalTempC 0x06401900 = 0x4039000000000000 := by decide +kernel
  have hvtc : thermocoupleVoltage (internalTempC 0x06401900) (rawHotJunctionC 0x06401900) = 0x4008C3FE5C91D14E := by
    decide +kernel
  have hvcj : coldJunctionVoltage exp Rom.default (internalTempC 0x06401900) = 0x3FF000FE208F1146 := by
    have harg : gaussArgument Rom.default 0x4039000000000000 = 0xBFF3B010BC4E1288 := by decide +kernel
    have hpos : fge 0x4039000000000000 zero = true := by decide
    rw [hti, coldJunctionVoltage, if_pos hpos, fwdPos, gauss, harg, hexp]
    decide +kernel
  refine ⟨hvtc, hvcj, ?_⟩
  rw [correctedHotJunctionC_sound _ _ _ (by decide), linearize, totalVoltage, hvtc, hvcj]
  decide +kernel

end Sys2Proof.Machine
end

section
/-! PROOFS. The obligations about the operations (43_operations.md rules R110 to R118): which requests are refused, what
an answered read leaves, a read and its turns one step at a time, and the Fahrenheit conversion. An answered read is
`performRead_answers`; what is left of each of the five is the value it projects. -/

namespace Sys2Proof.Machine

open Sys2Proof.Safety

/-! ### Requests -/

/-- The read a `CMD` code below 5 selects (30_encoding.md rule R49). -/
def readOfCode (w : Cmd) : ReadOp :=
  if w = 0b000 then .rdint else if w = 0b001 then .rdcel else if w = 0b010 then .rdraw
  else if w = 0b011 then .rdfah else .rdflt

/-- The eight codes, by computation: five reads and three reserved ones. -/
theorem decodeCmd_eq (w : Cmd) :
    decodeCmd w = if 5 ≤ w.toNat then .error (.reservedOp w) else .ok (readInstr (readOfCode w)) := by
  decide +revert

theorem readInstr_readOfCode (w : Cmd) :
    readInstr (readOfCode w) = if w = 0b000 then .rdint else if w = 0b001 then .rdcel else if w = 0b010 then .rdraw
      else if w = 0b011 then .rdfah else .rdflt := by
  simp only [readOfCode, apply_ite readInstr]
  rfl

theorem present_reserved {w : Cmd} (s : State) (h : 5 ≤ w.toNat) :
    present (.cmd w) s = .next (refuse (refusalOfReserved s) s) := by
  simp only [present, decode, decodeCmd_eq, if_pos h, refuseReserved]

theorem present_read {w : Cmd} (s : State) (h : ¬ 5 ≤ w.toNat) :
    present (.cmd w) s = performRead (readOfCode w) s := by
  have hd : decode (.cmd w) = .ok (readInstr (readOfCode w)) := (decodeCmd_eq w).trans (if_neg h)
  rw [present_of_decode s hd, exec_readInstr]

theorem execInit_refused {s : State} (strategy : Strategy) (pins : Pins) (h : s.cfg.valid = true ∨ s.busy = true) :
    exec (.init strategy pins) s = .next (refuse .refusedInit s) :=
  if_pos (by rwa [initRefused, Bool.or_eq_true])

theorem execInit_captures {s : State} (strategy : Strategy) (pins : Pins) (hv : s.cfg.valid = false)
    (hb : s.busy = false) :
    exec (.init strategy pins) s =
      .next { s with
        cfg := { valid := true, strategy := strategy, pins := pins }
        cs := false
        sck := false
        response := some { status := .ok, result := none } } :=
  if_neg (by simp [initRefused, hv, hb])

/-! ### An answered read -/

theorem exec_readInstr_answers (op : ReadOp) {s : State} {levels : List Bool} {frame : Frame} {rest : List Event}
    (hr : Ready s) (hd : Delivers levels frame) (he : s.events = turns levels ++ .decoderTurn :: rest) :
    exec (readInstr op) s = .next (answered s (resultOf op s.rom frame) rest) := by
  rw [exec_readInstr, performRead_answers op s levels frame rest hr hd he]

theorem rawHotJunctionC_eq_ite (frame : Frame) :
    rawHotJunctionC frame =
      if frame.toNat % 8 ≠ 0 then nanBits else fmul (i2f (sext 14 (frame.toNat / 2 ^ 18))) hjLsb := by
  simp only [rawHotJunctionC, faulted_eq, decide_eq_true_eq, hotJunction_eq]

theorem correctedHotJunctionC_eq_ite (exp : F64 → F64) (rom : Rom) (frame : Frame) :
    correctedHotJunctionC exp rom frame =
      if frame.toNat % 8 ≠ 0 then nanBits
      else linearize exp rom (internalTempC frame) (rawHotJunctionC frame) := by
  simp only [correctedHotJunctionC, faulted_eq, decide_eq_true_eq]

/-- The fault code zero-extended, as a number (41_frame_decode.md rule R70). -/
theorem setWidth_faultCode (frame : Frame) : (faultCode frame).setWidth 64 = BitVec.ofNat 64 (frame.toNat % 8) := by
  apply BitVec.eq_of_toNat_eq
  simp [faultCode]

/-! ### A read one step at a time -/

/-- The run of an operation is some number of steps. Its steps withdraw no response, since none is pending. -/
theorem runOperation_steps {events : List Event} {s t : State} (he : s.events = events) (hr : s.response = none)
    (h : runOperation events s = .next t) : ∃ n, Host.Core.run Sys2Proof.core n s = .next t := by
  induction events generalizing s with
  | nil => exact ⟨0, h⟩
  | cons e rest ih =>
    have withdrawn : { s with events := rest, response := none } = { s with events := rest } := by rw [← hr]
    cases e with
    | request w => exact ⟨0, h⟩
    | reset => exact ⟨0, h⟩
    | acquirerTurn level =>
      cases hp : s.poll with
      | none => simp only [runOperation, hp] at h; exact ⟨0, h⟩
      | some p =>
        rw [runOperation_turn level rest s p hp] at h
        obtain ⟨n, hn⟩ := ih (s := acquirerTurn level { s with events := rest }) (acquirerTurn_events _ _)
          ((acquirerTurn_response _ _).trans hr) h
        refine ⟨n + 1, ?_⟩
        rw [run_next n (step_acquirerTurn he), withdrawn, hn]
    | decoderTurn =>
      cases hp : s.poll with
      | some p => simp only [runOperation, hp] at h; exact ⟨0, h⟩
      | none =>
        rw [runOperation_decoder rest s hp, ← withdrawn, ← step_decoderTurn he] at h
        exact ⟨1, run_next 0 h⟩

/-! ### Requests during an operation -/

/-- What is left of an operation's turns when the requests between them are left out. -/
def isAcquirerTurn : Event → Bool
  | .acquirerTurn _ => true
  | _ => false

/-- A step that takes an event does not read the response outputs: it withdraws what stands there (log entry 5). -/
theorem step_withdraws {s : State} (he : s.events ≠ []) (response : Option Response) :
    step { s with response := response } = step s := by
  cases h : s.events with
  | nil => exact absurd h he
  | cons e rest =>
    cases e with
    | reset => simp only [step, h]; rfl
    | _ => simp only [step, h]

/-- A request during an operation leaves a refusal, which the next step withdraws. -/
theorem run_skips_request {s : State} (hb : s.busy = true) (w : HostWord) {events : List Event} (he : events ≠ [])
    (n : Nat) :
    Host.Core.run Sys2Proof.core (n + 2) { s with events := .request w :: events } =
      Host.Core.run Sys2Proof.core (n + 1) { s with events := events } := by
  obtain ⟨status, _, hp⟩ := present_busy w { s with events := events, response := none } hb
  have hrefused : step { s with events := .request w :: events } = _ := (step_request rfl).trans hp
  refine (run_next (n + 1) hrefused).trans ?_
  exact run_congr n (step_withdraws (s := { s with events := events }) he _)

theorem run_takes_turn (level : Bool) (s : State) (events : List Event) (n : Nat) :
    Host.Core.run Sys2Proof.core (n + 1) { s with events := .acquirerTurn level :: events } =
      Host.Core.run Sys2Proof.core n { acquirerTurn level s with events := events, response := none } := by
  rw [← acquirerTurn_with]
  exact run_next n (step_acquirerTurn rfl)

/-- Up to the decoder's turn the requests can be left out: the run ends in the same outcome (43_operations.md rule
R112). -/
theorem run_without_requests {between : List Event}
    (hbetween : ∀ e ∈ between, (∃ w, e = .request w) ∨ ∃ level, e = .acquirerTurn level) (rest : List Event) {s : State}
    (hb : s.busy = true) :
    Host.Core.run Sys2Proof.core (between.length + 1) { s with events := between ++ .decoderTurn :: rest } =
      Host.Core.run Sys2Proof.core ((between.filter isAcquirerTurn).length + 1)
        { s with events := between.filter isAcquirerTurn ++ .decoderTurn :: rest } := by
  induction between generalizing s with
  | nil => rfl
  | cons e between ih =>
    obtain ⟨he, htail⟩ := List.forall_mem_cons.1 hbetween
    rcases he with ⟨w, rfl⟩ | ⟨level, rfl⟩
    · exact (run_skips_request hb w (by simp) _).trans (ih htail hb)
    · have hafter := ih (s := { acquirerTurn level s with response := none }) htail
        ((acquirerTurn_busy level s).trans hb)
      exact (run_takes_turn level s _ _).trans (hafter.trans (run_takes_turn level s _ _).symm)

/-! ### The Fahrenheit conversion -/

/-- A finite addend makes no NaN. -/
theorem isNaN_fadd_finite (a : F64) {b : F64} (hb : isFinite b = true) : isNaN (fadd a b) = isNaN a := by
  rcases value_cases a with h | h | h
  · rw [h, isNaN_fadd a b (.inl h)]
  · rw [isNaN_false_of_finite a h, fadd_finite a b h hb]
    split
    · rw [← roundMag_zero 1, isNaN_pack_roundMag]
    · exact isNaN_pack_roundMag _ _ _
  · rw [infinity_of_isInf a h, fadd_infinity_finite _ b hb]

/-- A finite factor other than zero makes no NaN. -/
theorem isNaN_fmul_finite (a : F64) {b : F64} (hb : isFinite b = true) (hz : isZero b = false) :
    isNaN (fmul a b) = isNaN a := by
  rcases value_cases a with h | h | h
  · rw [h, isNaN_fmul a b (.inl h)]
  · rw [isNaN_false_of_finite a h, fmul_finite a b h hb, isNaN_pack_roundMag]
  · rw [infinity_of_isInf a h, fmul_of_isInf _ b (isNaN_infinity _) (isNaN_false_of_finite b hb)
      (.inl (isInf_infinity _)) (isZero_infinity _) hz, isNaN_infinity, isNaN_infinity]

/-- A finite divisor other than zero makes no NaN. -/
theorem isNaN_fdiv_finite (a : F64) {b : F64} (hb : isFinite b = true) (hz : isZero b = false) :
    isNaN (fdiv a b) = isNaN a := by
  rcases value_cases a with h | h | h
  · rw [h, isNaN_fdiv a b (.inl h)]
  · have hm : magUnits b ≠ 0 := by rw [ne_eq, magUnits_eq_zero_iff, hz]; simp
    rw [isNaN_false_of_finite a h, fdiv_finite a b h hb hm, isNaN_pack_roundMag]
  · rw [infinity_of_isInf a h, fdiv_infinity_finite _ b hb, isNaN_infinity, isNaN_infinity]

/-- The conversion makes a NaN of nothing else, infinities included (43_operations.md rule R118). -/
theorem isNaN_celsiusToFahrenheit (c : F64) : isNaN (celsiusToFahrenheit c) = isNaN c := by
  rw [celsiusToFahrenheit]
  split
  · next h => rw [h, isNaN_nanBits]
  · rw [isNaN_fadd_finite _ (b := thirtyTwo) rfl, isNaN_fdiv_finite _ (b := five) rfl rfl,
      isNaN_fmul_finite _ (b := nine) rfl rfl]

/-! ### The obligations -/

/-- Settles O11: a reserved code is tested last, and any other code selects a read, which makes the other two tests. -/
theorem requestTestsAreMadeInOrder : Obligations.RequestTestsAreMadeInOrder := by
  intro s w
  rw [← readInstr_readOfCode, exec_readInstr]
  by_cases h : 5 ≤ w.toNat
  · rw [present_reserved s h, if_pos h, refusalOfReserved, refusalOfRead]
    cases s.busy <;> cases s.cfg.valid <;> rfl
  · rw [present_read s h, if_neg h]
    split_ifs with hb hv
    · exact performRead_busy _ s hb
    · exact performRead_uninitialised _ s (Bool.eq_false_of_not_eq_true hb) hv
    · rfl

/-- Settles O13: the answer of an operation whose poll is delivered. -/
theorem rdintAnswersInternalTemperature : Obligations.RdintAnswersInternalTemperature := by
  intro s levels frame rest hr hd he
  exact (exec_readInstr_answers .rdint hr hd he).trans (by rw [resultOf_rdint])

/-- Settles O14: the same, the fault test written as arithmetic. -/
theorem rdcelAnswersCorrectedTemperature : Obligations.RdcelAnswersCorrectedTemperature := by
  intro s levels frame rest hr hd he
  exact (exec_readInstr_answers .rdcel hr hd he).trans (by rw [resultOf_rdcel, correctedHotJunctionC_eq_ite])

/-- Settles O15: the same, with the whole upper field of the frame. -/
theorem rdrawAnswersRawTemperature : Obligations.RdrawAnswersRawTemperature := by
  intro s levels frame rest hr hd he
  exact (exec_readInstr_answers .rdraw hr hd he).trans (by rw [resultOf_rdraw, rawHotJunctionC_eq_ite])

/-- Settles O16: the same, with the conversion of the corrected temperature. -/
theorem rdfahAnswersFahrenheit : Obligations.RdfahAnswersFahrenheit := by
  intro s levels frame rest hr hd he
  exact (exec_readInstr_answers .rdfah hr hd he).trans (by rw [resultOf_rdfah, celsiusToFahrenheit])

/-- Settles O17: the same, the three bits as a number. -/
theorem rdfltAnswersFaultCode : Obligations.RdfltAnswersFaultCode := by
  intro s levels frame rest hr hd he
  exact (exec_readInstr_answers .rdflt hr hd he).trans (by rw [resultOf_rdflt, setWidth_faultCode])

/-- Settles O18: the read is accepted, and its run stops before the first event that is not the acquirer's. -/
theorem readWaitsForTheAcquirer : Obligations.ReadWaitsForTheAcquirer := by
  intro s op hr hn
  rw [exec_readInstr, performRead_ready op s hr]
  exact runOperation_waits s.events (accepted s op) _ rfl hn

/-- Settles O21: by induction over the events, each request being one step that leaves only a refusal. -/
theorem requestsDoNotDisturbOperation : Obligations.RequestsDoNotDisturbOperation :=
  fun _ _ rest hb hbetween => run_without_requests hbetween rest hb

/-- Settles O22: an accepted read is the run of its operation, and that run is steps. -/
theorem readIsItsTurnsOneByOne : Obligations.ReadIsItsTurnsOneByOne := by
  intro s t op hr h
  rw [exec_readInstr, performRead_ready op s hr] at h
  exact runOperation_steps (s := accepted s op) rfl rfl h

/-- Settles O23: both responses carry `resultOf` of the operation, the table and the frame. -/
theorem responseDependsOnFrameAlone : Obligations.ResponseDependsOnFrameAlone := by
  intro s s' t t' op levels levels' frame rest rest' hr hr' hrom hd hd' he he' h h'
  cases (exec_readInstr_answers op hr hd he).symm.trans h
  cases (exec_readInstr_answers op hr' hd' he').symm.trans h'
  rw [answered, answered, hrom]

/-- Settles O48: `RDFAH` is the conversion of what `RDCEL` answers. -/
theorem fahrenheitIsNaNExactlyWithCelsius : Obligations.FahrenheitIsNaNExactlyWithCelsius := by
  intro rom f
  rw [resultOf_rdfah, resultOf_rdcel, isNaN_celsiusToFahrenheit]

/-- Settles O10: by the one test of `INIT`; the reset state passes it. -/
theorem initCapturesConfigurationOnce : Obligations.InitCapturesConfigurationOnce := by
  intro s strategy pins
  exact ⟨execInit_refused strategy pins, execInit_captures strategy pins,
    _, execInit_captures strategy pins rfl reset_busy, rfl⟩

/-- Settles O12: the first two tests of a read request. -/
theorem readIsRefusedUnlessReady : Obligations.ReadIsRefusedUnlessReady := by
  intro s op
  rw [exec_readInstr]
  exact ⟨performRead_busy op s, performRead_uninitialised op s⟩

/-- Settles O49: the four conversions, by computation. -/
theorem fahrenheitDataPoints : Obligations.FahrenheitDataPoints := by
  refine ⟨?_, ?_, ?_, ?_⟩ <;> decide +kernel

end Sys2Proof.Machine
end

section
/-! PROOFS. The obligations about errors (60_exceptions.md rules R130, R131, R133, R139, R145): a faulted frame and a
voltage out of range make results "not a number", and neither they nor anything else stops the machine or leaves a trace
in its state. That no step stops is `inv_step`; what a read leaves is `answered`, whatever its frame. -/

namespace Sys2Proof.Machine

open Sys2Proof.Safety

/-! ### An answered read -/

/-- But for the response, what a read leaves does not depend on its result (60_exceptions.md rule R139). -/
theorem answered_without_response (s : State) (result result' : BitVec 64) (rest : List Event) :
    { answered s result rest with response := none } = { answered s result' rest with response := none } := rfl

theorem answered_idle (s : State) (result : BitVec 64) (rest : List Event) :
    (answered s result rest).busy = false ∧ (answered s result rest).cs = false ∧
      (answered s result rest).frame = none := ⟨rfl, rfl, rfl⟩

/-! ### A faulted frame -/

theorem setWidth_faultCode_ne_zero {f : Frame} (h : f.extractLsb 2 0 ≠ 0) : (faultCode f).setWidth 64 ≠ 0 := by
  rw [extract_fault] at h
  intro hz
  have hcode : ((faultCode f).setWidth 64).setWidth 3 = faultCode f :=
    BitVec.setWidth_setWidth_of_le _ (by decide)
  exact h (by rw [← hcode, hz]; rfl)

/-- The internal temperature does not read the fault bits (41_frame_decode.md rule R75). -/
theorem internalTempC_without_fault_bits (f : Frame) : internalTempC f = internalTempC (f &&& 0xFFFFFFF8) :=
  internalTempC_congr (extractLsb_eq_of_and_eq (mask := 0xFFFFFFF8) (by decide)
    (by rw [BitVec.and_assoc, BitVec.and_self]))

/-! ### A voltage out of range -/

/-- At or above `V_MAX`, plus infinity included, no inverse set is selected (42_linearization.md rules R95 and R99). -/
theorem inverse_of_fge_vMax (rom : Rom) {v : F64} (h : fge v vMax = true) : inverse rom v = nanBits := by
  rcases value_cases v with hv | hv | hv
  · rw [inverse, invSelect_of_isNaN hv]
  · exact inverse_of_vMax_le rom hv ((fge_iff_toRat_le hv rfl).1 h)
  · rw [infinity_of_isInf v hv] at h ⊢
    cases hs : signBit v with
    | true =>
      rw [hs] at h
      exact absurd h (by decide)
    | false =>
      rw [inverse, invSelect_infinity false]
      rfl

/-! ### The obligations -/

/-- Settles O24: what a read leaves depends on the frame in its response alone. -/
theorem errorLeavesNoTrace : Obligations.ErrorLeavesNoTrace := by
  intro s op levels levels' frame frame' rest hr hd hd'
  exact ⟨_, _, exec_readInstr_answers op hr hd rfl, exec_readInstr_answers op hr hd' rfl,
    answered_without_response _ _ _ rest, answered_idle _ _ rest⟩

/-- Settles O26: the invariant excludes both model faults. -/
theorem stepNeverStops : Obligations.StepNeverStops := by
  intro s h
  obtain ⟨t, hstep, _⟩ := inv_step h
  exact ⟨t, hstep⟩

/-- Settles O46: a faulted frame is never linearized, and the conversion keeps its NaN. -/
theorem deviceFaultInvalidatesHotJunction : Obligations.DeviceFaultInvalidatesHotJunction := by
  intro rom f h
  have hf := (faulted_iff f).2 h
  rw [resultOf_rdraw, resultOf_rdcel, resultOf_rdfah, resultOf_rdflt, resultOf_rdint, resultOf_rdint,
    isNaN_celsiusToFahrenheit, rawHotJunctionC_faulted f hf, correctedHotJunctionC_faulted _ rom f hf, extract_fault]
  exact ⟨isNaN_nanBits, isNaN_nanBits, isNaN_nanBits, rfl, setWidth_faultCode_ne_zero h,
    internalTempC_without_fault_bits f⟩

/-- Settles O47: the inverse has no set for the voltage; the raw temperature is read before the linearization. -/
theorem outOfRangeInvalidatesCorrectedOnly : Obligations.OutOfRangeInvalidatesCorrectedOnly := by
  intro rom f hfault hv
  have hf := (faulted_eq_false_iff f).2 hfault
  have hcorrected : correctedHotJunctionC Config.exp rom f = nanBits := by
    rw [correctedHotJunctionC_sound _ rom f hf, linearize, inverse_of_fge_vMax rom hv]
  have hraw := isNaN_false_of_finite _ (rawHotJunctionC_exact hf).1
  have hcode : faultCode f = 0 := (extract_fault f).symm.trans hfault
  rw [resultOf_rdcel, resultOf_rdfah, resultOf_rdraw, resultOf_rdint, resultOf_rdflt, isNaN_celsiusToFahrenheit,
    hcorrected, hcode]
  exact ⟨isNaN_nanBits, isNaN_nanBits, rawHotJunctionC_sound f hf, hraw, rfl, rfl⟩

/-- Settles O5: with an empty schedule the step takes no event. -/
theorem noEventChangesNothing : Obligations.NoEventChangesNothing := fun _ => step_without_events

end Sys2Proof.Machine
end

section
/-! Reset (70_reset_and_hazards.md). -/

namespace Sys2Proof.Machine

/-- Settles O29: the next state is `applyReset` of the rest of the schedule, read field by field. -/
theorem resetAbandonsTheOperation : Obligations.ResetAbandonsTheOperation := by
  intro s rest h
  exact ⟨_, step_reset h, congrArg Cfg.valid (applyReset_cfg _), applyReset_busy _, applyReset_frame _,
    applyReset_poll _, applyReset_cs _, applyReset_sck _, applyReset_response _, applyReset_rom _, applyReset_events _⟩

end Sys2Proof.Machine
end
